-- ==== Sys2Proof/Word.lean ====
section
/-! DEFINITION. The word types of the light-evm core (spec/00_scope.md R4, spec/10_state.md R10). -/

namespace Sys2Proof

/-- A byte: an opcode, an immediate, a byte of `code` (R4, R6). -/
abbrev Byte := BitVec 8

/-- A word of the operand stack: `XLEN = 32` bits, unsigned (R4, R13). -/
abbrev Word := BitVec 32

/-- The program counter's type: `PC_BITS = 32` bits, unsigned (R10; spec decision D1). -/
abbrev Addr := BitVec 32

end Sys2Proof
end

