-- ==== Sys2Proof/Machine/Alu.lean ====
section
/-! DEFINITION. The ALU: exactly two operations, computed exactly and then reduced modulo 2^32 (spec/42_arithmetic.md R84). The
carry out and the high half of the product are lost, and no flag records them (spec/10_state.md R16). -/

namespace Sys2Proof.Machine

/-- `(a + b) mod 2^32` (R80, R84). -/
def aluAdd (a b : Word) : Word := BitVec.ofNat 32 ((a.toNat + b.toNat) % 2 ^ 32)

/-- `(a * b) mod 2^32`: bits 31:0 of the exact product (R81, R84). -/
def aluMul (a b : Word) : Word := BitVec.ofNat 32 ((a.toNat * b.toNat) % 2 ^ 32)

end Sys2Proof.Machine
end

