-- ==== Sys2Proof/Config.lean ====
section
/-! DEFINITION. The implementation parameters of spec/00_scope.md R5 and the configuration inputs of a run
(spec/10_state.md R17, R19, R25; spec/40_engine.md R72). -/

namespace Sys2Proof

/-- `PC_BITS`, the width of `pc` (R5; spec decision D1). `Addr` has this width. -/
def Config.pcBits : Nat := 32

/-- `MEM_SIZE`, the bytes of data memory (R5, R18; spec decision D3). -/
def Config.memSize : Nat := 0

/-- `STACK_DEPTH`, the number of slots of the operand stack register file: a positive natural, or unbounded as in the
source (R5, R13; spec decision D2 leaves it open, so it is an argument). That a finite depth is positive is checked by
`Configuration.depthPositive`. -/
inductive StackDepth where
  | unbounded
  | finite (slots : Nat)
deriving DecidableEq, Repr

/-- The inputs of a run, supplied by the host before reset is released and constant during the run (R17, R19, R25, R72, R122). -/
structure Configuration where
  /-- `code`, address 0 first; `CODE_LEN` is its length (R17, R38). -/
  code : List Byte
  /-- `STACK_DEPTH` (R5). -/
  stackDepth : StackDepth
  /-- `trace_enabled` (R19). -/
  traceEnabled : Bool
  /-- `single_step_enabled` (R19). -/
  singleStepEnabled : Bool
  /-- `CONTINUE_LATCHED`: is a continue signal given while no step is held remembered (R5, R66)? Pacing only. -/
  continueLatched : Bool
deriving DecidableEq, Repr

/-- The configuration while the host has supplied nothing: no code, no bound, both flags and the latch clear.
DESIGN CHOICE (notes/assumptions/1.md): the spec says only that the host supplies these. unsafe -/
def Configuration.unsupplied : Configuration :=
  { code := [], stackDepth := .unbounded, traceEnabled := false, singleStepEnabled := false, continueLatched := false }

end Sys2Proof
end

