-- ==== Sys2Proof/Machine/State.lean ====
section
/-! DEFINITION. The machine's state and its reset value (spec/10_state.md R10 to R25), and the reasons a step can stop. -/

namespace Sys2Proof.Machine

/-- The data memory: cells with addresses strictly rising, each below `MEM_SIZE`. An unlisted address reads as nothing at all,
since `MEM_SIZE = 0` and no address exists (R18, R30; notes/assumptions/12.md). -/
abbrev Memory := List Host.Cell

/-- The canonical form: addresses strictly rising and inside the memory. With `MEM_SIZE = 0` only the empty list has it. -/
def Memory.wf (m : Memory) : Bool :=
  decide (m.Pairwise (fun a b => a.1 < b.1)) && m.all (fun c => c.1 < Config.memSize)

/-- The `status` register, what `step()` returned in the software (R20). The value 3 never occurs. -/
inductive Status where
  /-- no terminal condition yet (0). -/
  | running
  /-- a `HALT` was executed (1). -/
  | halted
  /-- a step failed (2). -/
  | faulted
deriving DecidableEq, Repr

/-- The `cause` register (R21, R100). The values 5 to 7 never occur. -/
inductive Cause where
  /-- `none` (0): the value whenever `status` is not `FAULTED`. -/
  | noFault
  /-- 1: decode failed, past the end or on an illegal byte (R101). -/
  | invalidOpcode
  /-- 2: `ADD` or `MUL` with fewer than two entries (R102). -/
  | stackUnderflow
  /-- 3: `PUSH1` without its operand byte (R90, R103). -/
  | operandOutOfBounds
  /-- 4: `PUSH1` into a full register file (R63, R103). -/
  | stackOverflow
deriving DecidableEq, Repr

/-- What the trace port presents (R68): `(code, pc)` before an execute, the stack, top first, after one. -/
inductive TraceEvent where
  | before (code : List Byte) (pc : Addr)
  | after (stack : List Word)
deriving DecidableEq, Repr

/-- The state. `pc`, `stack`, `status`, `cause` are the architectural state of R25, `memory` the constant empty data memory of
R18, `config` the inputs of the run, which no step writes; `continues` and `trace` are the model's own, for the host's continue
signal and the trace port. -/
structure State where
  /-- The program counter: the address of the opcode byte being decoded (R10). -/
  pc : Addr
  /-- The operand stack, top at the head: `[x[sp-1], ..., x[1], x[0]]` (R8, R13, R14); `sp` is its length. -/
  stack : List Word
  /-- The data memory (R18). -/
  memory : Memory
  /-- `status` (R20). -/
  status : Status
  /-- `cause` (R21). -/
  cause : Cause
  /-- The configuration inputs (R17, R19, R25). -/
  config : Configuration
  /-- The continue signals given and not used up yet (R66). DESIGN CHOICE, notes/assumptions/6.md. safe -/
  continues : Nat
  /-- What the trace port has presented, newest first (R68). DESIGN CHOICE, notes/assumptions/7.md. safe -/
  trace : List TraceEvent
deriving DecidableEq, Repr

/-- A step that stops outside the machine with a fault: there is none. Every fault of the spec is a state of the machine,
`status = FAULTED` with its `cause` (R20, R21, R104), so it is a next state. Nothing raises a term of this type. safe -/
inductive Fault where
deriving DecidableEq, Repr

/-- Why the model refuses to take a step. -/
inductive Refusal where
  /-- Raised by an arm of `exec` without a meaning; no arm raises it now. safe -/
  | notModelled (mnemonic : String)
  /-- Raised by `step` when `CODE_LEN > 2^PC_BITS - 1`: the spec refuses such a configuration (R5, R12, U16, D1). safe -/
  | codeTooLong
  /-- Raised by `step` when `STACK_DEPTH` is finite and 0: it is "a positive natural, or `unbounded`" (R5). safe -/
  | zeroStackDepth
deriving DecidableEq, Repr

/-- The machine right after reset (R24), with nothing supplied by the host yet (`Configuration.unsupplied`, notes/assumptions/1.md). -/
def State.reset : State :=
  { pc := 0, stack := [], memory := [], status := .running, cause := .noFault,
    config := Configuration.unsupplied, continues := 0, trace := [] }

end Sys2Proof.Machine
end

