-- ==== Sys2Proof/Machine/Ops.lean ====
section
/-! DEFINITION. The named operations over memory, registers and the stack (spec/00_scope.md R7, spec/20_memory.md R31,
spec/40_engine.md R63, R64), and taking a fault (spec/60_exceptions.md R104). -/

namespace Sys2Proof.Machine

/-! ### Reading -/

/-- `CODE_LEN` (R5, R17). -/
def State.codeLen (s : State) : Nat := s.config.code.length

/-- `MemRead(addr, 1)` on the code space: `code[addr]` for `addr < CODE_LEN`, and no value past the end (R31). -/
def State.codeByte? (s : State) (addr : Nat) : Option Byte := s.config.code[addr]?

/-- One byte of a data memory: the listed cell's, else none, since an unlisted address does not exist (R18, R30). -/
def Memory.read (m : Memory) (addr : Nat) : Option Byte := (m.find? (·.1 == addr)).map (·.2)

/-- One byte of the data memory (R18, R30). No instruction uses it. -/
def State.dataByte? (s : State) (addr : Nat) : Option Byte := Memory.read s.memory addr

/-- `sp`, the number of entries (R13). -/
def State.sp (s : State) : Nat := s.stack.length

/-- `x[i]`, slot 0 the bottom, for `i < sp`; the slots above hold no value (R7, R13, R14). -/
def State.slot? (s : State) (i : Nat) : Option Word := s.stack.reverse[i]?

/-- Is a register file with `sp` entries full: "`STACK_DEPTH` is finite and `sp = STACK_DEPTH`" (R63). -/
def stackFull (depth : StackDepth) (sp : Nat) : Bool :=
  match depth with
  | .unbounded => false
  | .finite slots => sp == slots

/-! ### Writing -/

/-- Replaces the sequence `x[0..sp-1]` (R14). -/
def State.setStack (s : State) (stack : List Word) : State := { s with stack := stack }

/-- `pc <- pc + n` (R11). Within a legal configuration it never wraps (R12). -/
def State.advancePc (s : State) (n : Nat) : State := { s with pc := s.pc + BitVec.ofNat 32 n }

/-- `halt`: `status <- HALTED`, nothing else (R7, R75). -/
def State.halt (s : State) : State := { s with status := .halted }

/-- `raise c`: `status <- FAULTED; cause <- c`, nothing else (R104). The one operation by which a fault is taken; the spec
has no return from it (R107). -/
def State.raise (s : State) (c : Cause) : State := { s with status := .faulted, cause := c }

/-- The trace port presents `e` (R68). -/
def State.emit (s : State) (e : TraceEvent) : State := { s with trace := e :: s.trace }

/-- The host gives one continue signal that counts (R66). -/
def State.addContinue (s : State) : State := { s with continues := s.continues + 1 }

/-- A released step uses up one continue signal: "One continue signal releases one step" (R66). -/
def State.takeContinue (s : State) : State := { s with continues := s.continues - 1 }

/-! ### The stack primitives -/

/-- `Push(v)` (R63). -/
def push (v : Word) (s : State) : Except Cause State :=
  if stackFull s.config.stackDepth s.sp then .error .stackOverflow else .ok (s.setStack (v :: s.stack))

/-- `Pop()` (R64, R15): the popped word and the state after. -/
def pop (s : State) : Except Cause (Word × State) :=
  match s.stack with
  | [] => .error .stackUnderflow
  | v :: rest => .ok (v, s.setStack rest)

/-- A step is atomic: all its writes happen, or on a fault none but `status` and `cause` (R7, R62, R104). `s` is the state
before the instruction, `r` what its pseudocode gives. Both are next states: a fault is taken, not a stop of the model. -/
def atomically (s : State) (r : Except Cause State) : Host.Outcome State Fault Refusal :=
  match r with
  | .ok t => .next t
  | .error c => .next (s.raise c)

end Sys2Proof.Machine
end

