-- ==== Sys2Proof/Machine/Operands.lean ====
section
/-! DEFINITION. The two operand forms of the instruction set: the immediate byte of `PUSH1` (spec/30_encoding.md R47) and the
implicit top two entries of `ADD` and `MUL` (spec/42_arithmetic.md R80 to R83). -/

namespace Sys2Proof.Machine

/-- The word with the same numeric value as the byte, bits 31:8 zero (R6, R47). -/
def zext32 (b : Byte) : Word := BitVec.ofNat 32 b.toNat

/-- The address of `PUSH1`'s operand byte: `pc + 1`, computed on naturals with no wrap (R12, R91). -/
def State.operandAddr (s : State) : Nat := s.pc.toNat + 1

/-- The operand byte of `PUSH1`, none when it lies past the end of `code` (R31, R90). -/
def State.operandByte? (s : State) : Option Byte := s.codeByte? s.operandAddr

/-- Replaces the top two entries by `f left right`: underflow is tested before anything is popped (R82), the first pop is the top
and the right-hand operand, the second the left-hand one (R83), and the result is pushed (R80, R81). `pc` is the instruction's own
business (R11). -/
def binaryOp (f : Word → Word → Word) (s : State) : Except Cause State :=
  if s.sp < 2 then .error .stackUnderflow
  else (pop s).bind fun (right, s₁) => (pop s₁).bind fun (left, s₂) => push (f left right) s₂

end Sys2Proof.Machine
end

