-- ==== Sys2Proof/Machine/Arithmetic.lean ====
section
/-! DEFINITION. `ADD` and `MUL` (spec/42_arithmetic.md R80, R81, R82). -/

namespace Sys2Proof.Machine

/-- `ADD` (R80): the top two entries become their sum modulo 2^32, `pc <- pc + 1`; `StackUnderflow` when `sp < 2`. -/
def execAdd (s : State) : Host.Outcome State Fault Refusal :=
  atomically s ((binaryOp aluAdd s).map (·.advancePc 1))

/-- `MUL` (R81): the top two entries become the low 32 bits of their product, `pc <- pc + 1`; `StackUnderflow` when `sp < 2`. -/
def execMul (s : State) : Host.Outcome State Fault Refusal :=
  atomically s ((binaryOp aluMul s).map (·.advancePc 1))

end Sys2Proof.Machine
end

