-- ==== Sys2Proof/Machine/Control.lean ====
section
/-! DEFINITION. `HALT` (spec/41_halt.md R75), the only instruction of control: there is no branch, jump or call (R76). -/

namespace Sys2Proof.Machine

/-- `HALT` (R75): `status <- HALTED`; `cause`, `pc` and the stack stay. That `pc` keeps the address of the `HALT` is the spec's
resolution C2 (notes/assumptions/8.md). -/
def execHalt (s : State) : Host.Outcome State Fault Refusal := .next s.halt

end Sys2Proof.Machine
end

