-- ==== Sys2Proof/Machine/PushImmediate.lean ====
section
/-! DEFINITION. `PUSH1` (spec/43_push_immediate.md R90). -/

namespace Sys2Proof.Machine

/-- `PUSH1` (R90): pushes the byte at `pc + 1`, zero-extended, `pc <- pc + 2`. The missing operand is found before the full
register file (R105). -/
def execPush1 (s : State) : Host.Outcome State Fault Refusal :=
  atomically s
    (match s.operandByte? with
    | none => .error .operandOutOfBounds
    | some imm8 => (push (zext32 imm8) s).map (·.advancePc 2))

end Sys2Proof.Machine
end

