-- ==== Sys2Proof/Syntax.lean ====
section
/-! DEFINITION. The instruction set (spec/30_encoding.md R48, R49) and instructions with their operand written out
(spec/30_encoding.md R45, R54). -/

namespace Sys2Proof

/-- The closed set of four instructions, as the decoder gives them (R48). `Decode` reads the opcode byte alone, so a decoded
`PUSH1` carries no operand: "no payload needed at decode time" (R49); its operand byte is read at execution (R61, R90). -/
inductive Instr where
  /-- `HALT`, source variant Halt, R75. -/
  | halt
  /-- `ADD`, source variant Add, R80. -/
  | add
  /-- `MUL`, source variant Multiply, R81. -/
  | mul
  /-- `PUSH1`, source variant PushImmediate, R90. -/
  | push1
deriving DecidableEq, Repr

/-- A line of a listing: an instruction with its immediate (R54; the two formats of R45). -/
inductive AsmInstr where
  | halt
  | add
  | mul
  | push1 (imm8 : Byte)
deriving DecidableEq, Repr

/-- The decoded instruction a line stands for: the operand byte is not part of it (R49). -/
def AsmInstr.instr : AsmInstr → Instr
  | .halt => .halt
  | .add => .add
  | .mul => .mul
  | .push1 _ => .push1

end Sys2Proof
end

