-- ==== Sys2Proof/Decode.lean ====
section
/-! DEFINITION. Decode and encode (spec/30_encoding.md R45 to R57). -/

namespace Sys2Proof

/-- A row of spec/opcode_table.json; `matchByte` and `mask` apply to byte 0 only (R57). -/
structure OpcodeRow where
  instr : Instr
  matchByte : Byte
  mask : Byte
  length : Nat
  pcAdvance : Nat
  stackPops : Nat
  stackPushes : Nat
deriving DecidableEq, Repr

/-- The opcode map (R48, R57). -/
def opcodeTable : List OpcodeRow :=
  [ { instr := .halt,  matchByte := 0x00, mask := 0xFF, length := 1, pcAdvance := 0, stackPops := 0, stackPushes := 0 },
    { instr := .add,   matchByte := 0x01, mask := 0xFF, length := 1, pcAdvance := 1, stackPops := 2, stackPushes := 1 },
    { instr := .mul,   matchByte := 0x02, mask := 0xFF, length := 1, pcAdvance := 1, stackPops := 2, stackPushes := 1 },
    { instr := .push1, matchByte := 0x60, mask := 0xFF, length := 2, pcAdvance := 2, stackPops := 0, stackPushes := 1 } ]

/-- "the row is selected when `(code[pc] AND mask) = match`" (R57). -/
def OpcodeRow.selects (r : OpcodeRow) (op : Byte) : Bool := op &&& r.mask == r.matchByte

/-- The table's row of an instruction (R57). -/
def Instr.row (i : Instr) : Option OpcodeRow := opcodeTable.find? (·.instr == i)

/-- `Decode`, a pure total function of the opcode byte alone; `none` for the 252 illegal bytes (R49, R50). -/
def decodeOpcode (op : Byte) : Option Instr := (opcodeTable.find? (·.selects op)).map (·.instr)

/-- Why a byte sequence does not begin with a whole instruction. -/
inductive DecodeError where
  /-- no byte is left (R51); the machine raises `InvalidOpcode` there. -/
  | pastEnd
  /-- one of the 252 illegal opcode bytes (R50); the machine raises `InvalidOpcode` there. -/
  | illegalOpcode (op : Byte)
  /-- a `0x60` with no byte after it (R90); the machine raises `OperandOutOfBounds` there. -/
  | operandMissing
deriving DecidableEq, Repr

/-- Reads one instruction with its operand from the front of a byte sequence, lowest address first (R45, R55), and gives the
bytes after it. Total on any bytes. -/
def decode : List Byte → Except DecodeError (AsmInstr × List Byte)
  | [] => .error .pastEnd
  | op :: rest =>
    match decodeOpcode op with
    | none => .error (.illegalOpcode op)
    | some .halt => .ok (.halt, rest)
    | some .add => .ok (.add, rest)
    | some .mul => .ok (.mul, rest)
    | some .push1 =>
      match rest with
      | [] => .error .operandMissing
      | imm8 :: rest' => .ok (.push1 imm8, rest')

/-- Reads a whole byte sequence as a listing, walking from its first byte (R36, R53). -/
def disassemble : List Byte → Except DecodeError (List AsmInstr)
  | [] => .ok []
  | op :: rest =>
    match decodeOpcode op with
    | none => .error (.illegalOpcode op)
    | some .halt => (disassemble rest).map (.halt :: ·)
    | some .add => (disassemble rest).map (.add :: ·)
    | some .mul => (disassemble rest).map (.mul :: ·)
    | some .push1 =>
      match rest with
      | [] => .error .operandMissing
      | imm8 :: rest' => (disassemble rest').map (.push1 imm8 :: ·)

/-- The opcode byte of an instruction (R48, R54). -/
def opcodeOf : Instr → Byte
  | .halt => 0x00
  | .add => 0x01
  | .mul => 0x02
  | .push1 => 0x60

/-- The bytes of an instruction in fetch order: format `O` is the opcode byte, format `OI` the opcode byte and `imm8` (R45, R54). -/
def encode : AsmInstr → List Byte
  | .halt => [opcodeOf .halt]
  | .add => [opcodeOf .add]
  | .mul => [opcodeOf .mul]
  | .push1 imm8 => [opcodeOf .push1, imm8]

/-- The bytes of a listing, lowest address first (R54, R55). -/
def assemble (lines : List AsmInstr) : List Byte := lines.flatMap encode

/-- The longest instruction, two bytes (R45), laid out from the table's numbering: bits 7:0 of `w` are byte 0, bits 15:8 byte 1;
the bits from `nbits` on are 0. -/
def tableBytes (nbits w : Nat) : List Byte :=
  [BitVec.ofNat 8 (w % 2 ^ nbits), BitVec.ofNat 8 (w % 2 ^ nbits / 256)]

/-- What the decoder reads from the instruction whose bits are `w`, numbered as spec/opcode_table.json numbers them. -/
def decodeTableWord (nbits w : Nat) : Option Instr :=
  match decode (tableBytes nbits w) with
  | .ok (line, _) => some line.instr
  | .error _ => none

end Sys2Proof
end

