-- ==== Sys2Proof/WellFormed.lean ====
section
/-! DEFINITION. The checks on what the host supplies (spec/00_scope.md R5, spec/70_reset_and_hazards.md R122). Every term of
`Instr` and `AsmInstr` is well formed: R47 makes all 256 immediates legal, and no instruction has another field. -/

namespace Sys2Proof

/-- `CODE_LEN <= 2^PC_BITS - 1` (R5, R12, R122). -/
def codeLenFits (len : Nat) : Bool := len ≤ 2 ^ Config.pcBits - 1

/-- `STACK_DEPTH` is a positive natural or unbounded (R5). -/
def StackDepth.positive : StackDepth → Bool
  | .unbounded => true
  | .finite slots => 0 < slots

/-- A legal configuration of a run (R5, R122). Any byte sequence of a length that fits is accepted (R17, R120). -/
def Configuration.wf (c : Configuration) : Bool := codeLenFits c.code.length && c.stackDepth.positive

end Sys2Proof
end

