-- ==== Sys2Proof/Machine/Engine.lean ====
section
/-! DEFINITION. The sequencer (spec/40_engine.md R60 to R69): fetch and decode, the single-step hold, the trace, the step's
order of actions, and the run. -/

namespace Sys2Proof.Machine

/-- `DecodeNext()` (R61): reads `pc` and `code` only; past the end and an illegal byte both give `InvalidOpcode` (R51). -/
def decodeNext (s : State) : Except Cause Instr :=
  match s.codeByte? s.pc.toNat with
  | none => .error .invalidOpcode
  | some op =>
    match decodeOpcode op with
    | none => .error .invalidOpcode
    | some i => .ok i

/-- Is a decoded step to wait: single-stepping, and no continue signal given (R66)? -/
def awaitsContinue (s : State) : Bool := s.config.singleStepEnabled && s.continues == 0

/-- Is the core in a single-step hold: running, decoded, waiting for the host (R65, R66)? It is a fact of the state, not a
field, since "the hold carries no state beyond `pc`" (R23). -/
def isHeld (s : State) : Bool :=
  s.status == .running && (decodeNext s).toBool && awaitsContinue s

/-- The release of the hold: the step uses up the continue signal it waited for (R66). Without single-stepping there is none. -/
def releaseHold (s : State) : State := if s.config.singleStepEnabled then s.takeContinue else s

/-- `TraceBefore(code, pc)`, if the trace is on (R65, R68). -/
def traceBefore (s : State) : State :=
  if s.config.traceEnabled then s.emit (.before s.config.code s.pc) else s

/-- `TraceAfter(stack)`, if the trace is on and the execute neither raised nor halted (R65, R68; spec decision D17, notes/assumptions/7.md). -/
def traceAfter (s : State) : State :=
  if s.config.traceEnabled && s.status == .running then s.emit (.after s.stack) else s

/-- Applies `f` to the next state of an outcome. -/
def onNext (f : State → State) : Host.Outcome State Fault Refusal → Host.Outcome State Fault Refusal
  | .next s => .next (f s)
  | .fault r => .fault r
  | .refused r => .refused r

/-- What a decoded step does once it is not held: trace, execute, trace (R65). -/
def executeDecoded (execute : Instr → State → Host.Outcome State Fault Refusal) (i : Instr) (s : State) :
    Host.Outcome State Fault Refusal :=
  onNext traceAfter (execute i (traceBefore (releaseHold s)))

/-- `Step()` (R65) over a given `Execute`. A configuration the spec refuses (R5, U16) takes no step. In a terminal state no step is
enabled and every register keeps its value (R106): the model answers the same state (notes/assumptions/4.md). A decode failure is
raised with no hold and no trace; a held step does nothing (R66, notes/assumptions/6.md). -/
def stepWith (execute : Instr → State → Host.Outcome State Fault Refusal) (s : State) : Host.Outcome State Fault Refusal :=
  if !codeLenFits s.codeLen then .refused .codeTooLong
  else if !s.config.stackDepth.positive then .refused .zeroStackDepth
  else if s.status != .running then .next s
  else
    match decodeNext s with
    | .error c => .next (s.raise c)
    | .ok i => if awaitsContinue s then .next s else executeDecoded execute i s

/-- `Run()` (R69) over a given `Step`, with fuel: steps while `status = RUNNING`. With fuel `CODE_LEN + 1` it does not run out
unless a hold is never lifted (R70, U4). -/
def runWith (step : State → Host.Outcome State Fault Refusal) : Nat → State → Host.Outcome State Fault Refusal
  | 0, s => .next s
  | fuel + 1, s =>
    if s.status != .running then .next s
    else
      match step s with
      | .next t => runWith step fuel t
      | .fault r => .fault r
      | .refused r => .refused r

/-- The code with `bytes` at address `at_` and whatever stood elsewhere. Where `code` ends before `at_`, bytes `0x00` fill the gap
(notes/assumptions/5.md). -/
def overwriteCode (code : List Byte) (at_ : Nat) (bytes : List Byte) : List Byte :=
  code.take at_ ++ List.replicate (at_ - code.length) 0 ++ bytes ++ code.drop (at_ + bytes.length)

/-- The host has loaded `bytes` where the next step fetches, and that step is enabled and not held: the core is running, and if it
single-steps a continue signal has been given (R65, R66, R122; notes/assumptions/5.md). -/
def placeInstruction (s : State) (bytes : List Byte) : State :=
  { s with
    config := { s.config with code := overwriteCode s.config.code s.pc.toNat bytes }
    status := .running
    cause := .noFault
    continues := if awaitsContinue s then 1 else s.continues }

end Sys2Proof.Machine
end

