-- ==== Sys2Proof/Machine/Step.lean ====
section
/-! DEFINITION. The step (spec/40_engine.md R65), the run (R69) and the host's instruction placement. -/

namespace Sys2Proof.Machine

/-- `Step()` (R65). -/
def step (s : State) : Host.Outcome State Fault Refusal := stepWith exec s

/-- `Run()` (R69), taking at most `fuel` steps. -/
def run (fuel : Nat) (s : State) : Host.Outcome State Fault Refusal := runWith step fuel s

/-- `s` with the instruction whose bits are `w` (numbered as the opcode table numbers them) stored at `pc`, where `step` fetches. -/
def State.withFetchWord (s : State) (nbits w : Nat) : State := placeInstruction s (tableBytes nbits w)

end Sys2Proof.Machine
end

