-- ==== Sys2Proof/Machine/Flags.lean ====
section
/-! DEFINITION. The machine has no flags (spec/10_state.md R16): "The only bits that record an outcome are `status` and
`cause`". This file holds the encodings of those two registers (R20, R21) and which causes an instruction can record
(spec/60_exceptions.md R100, spec/30_encoding.md R57). -/

namespace Sys2Proof.Machine

/-- The 2-bit encoding of `status` (R20). -/
def Status.bits : Status → BitVec 2
  | .running => 0
  | .halted => 1
  | .faulted => 2

/-- The 3-bit encoding of `cause` (R21). -/
def Cause.bits : Cause → BitVec 3
  | .noFault => 0
  | .invalidOpcode => 1
  | .stackUnderflow => 2
  | .operandOutOfBounds => 3
  | .stackOverflow => 4

/-- The causes an instruction's execute can raise: the column `faults` of the opcode table (R57, R100). `InvalidOpcode` belongs
to decode and is in no row. -/
def faultsOf : Instr → List Cause
  | .halt => []
  | .add => [.stackUnderflow]
  | .mul => [.stackUnderflow]
  | .push1 => [.operandOutOfBounds, .stackOverflow]

end Sys2Proof.Machine
end

