-- ==== Sys2Proof/Machine/HostInterface.lean ====
section
/-! DEFINITION. The host's moves and what it reads (spec/40_engine.md R66, R72; spec/70_reset_and_hazards.md R120, R121). A move
lands between two steps, since a step is atomic (R60). -/

namespace Sys2Proof.Machine

/-- Construct, which is reset (R24, R120): the state a run starts from, for any configuration. The host gives code and flags; the
rest is fixed. No continue signal is remembered and the trace port's record is empty (notes/assumptions/6.md, 7.md). -/
def construct (cfg : Configuration) : State := { State.reset with config := cfg }

/-- `reset` in any state: the run is discarded and a new one starts with the code and flags then supplied; nothing survives (R121).
DESIGN CHOICE (notes/assumptions/20.md): the whole configuration is supplied anew, so `STACK_DEPTH` and `CONTINUE_LATCHED` too may differ
from one run to the next; the spec does not say whether they may. safe -/
def hostReset (cfg : Configuration) (_ : State) : State := construct cfg

/-- The `continue` event (R66, R72): ignored unless single-stepping; lifts the hold if a step is held; otherwise it is remembered if
`CONTINUE_LATCHED`, and lost if not (notes/assumptions/6.md). -/
def hostContinue (s : State) : State :=
  if s.config.singleStepEnabled && (isHeld s || s.config.continueLatched) then s.addContinue else s

/-- The host's ordinary conduct while a run single-steps: one continue signal when a step is held, none otherwise (R66). -/
def signalHold (s : State) : State := if isHeld s then hostContinue s else s

/-- A run whose every hold the host lifts as it arises, one signal per hold (R66, D16), taking at most `fuel` steps. Without
single-stepping it is `run`. -/
def attendedRun (fuel : Nat) (s : State) : Host.Outcome State Fault Refusal := runWith (fun u => step (signalHold u)) fuel s

/-- The output signals (R72). -/
structure Outputs where
  status : BitVec 2
  cause : BitVec 3
  pc : Addr
  sp : Nat
  /-- `x[0..sp-1]`, bottom first. -/
  x : List Word
deriving DecidableEq, Repr

/-- What the host reads at every step boundary and after the run (R72, R106). -/
def outputs (s : State) : Outputs :=
  { status := s.status.bits, cause := s.cause.bits, pc := s.pc, sp := s.sp, x := s.stack.reverse }

end Sys2Proof.Machine
end

