-- ==== Sys2Proof/Machine/Loader.lean ====
section
/-! DEFINITION. The loader's text policy (spec/30_encoding.md R56; spec decision D13). It is outside the block
(spec/00_scope.md R3); the spec records it so that test vectors can be fed, and no step uses it. -/

namespace Sys2Proof.Machine

/-- The configuration-time error of R56 and R110: not a fault of the core, and without a `cause` code. -/
inductive LoadError where
  | invalidBytecode
deriving DecidableEq, Repr

/-- The value of a hexadecimal digit of either case (R56). -/
def hexDigit? (c : Char) : Option Nat :=
  if '0' ≤ c ∧ c ≤ '9' then some (c.toNat - '0'.toNat)
  else if 'a' ≤ c ∧ c ≤ 'f' then some (c.toNat - 'a'.toNat + 10)
  else if 'A' ≤ c ∧ c ≤ 'F' then some (c.toNat - 'A'.toNat + 10)
  else none

/-- Two digits a byte, first pair at address 0, high digit first; any other character or an odd digit is an error (R56). -/
def hexPairs : List Char → Except LoadError (List Byte)
  | [] => .ok []
  | [_] => .error .invalidBytecode
  | hi :: lo :: rest =>
    match hexDigit? hi, hexDigit? lo with
    | some h, some l => (hexPairs rest).map (BitVec.ofNat 8 (16 * h + l) :: ·)
    | _, _ => .error .invalidBytecode

/-- The strict policy: an optional `0x` or `0X`, then pairs of digits (R56). -/
def loadHex : List Char → Except LoadError (List Byte)
  | '0' :: 'x' :: digits => hexPairs digits
  | '0' :: 'X' :: digits => hexPairs digits
  | digits => hexPairs digits

/-- A run from a text: on malformed text the core is never released from reset (R56). `cfg` gives the flags and parameters. -/
def constructFromHex (text : List Char) (cfg : Configuration) : Except LoadError State :=
  (loadHex text).map fun code => construct { cfg with code := code }

end Sys2Proof.Machine
end

