-- ==== Sys2Proof/Safety.lean ====
section
/-! DEFINITION. The words claims use: the architectural state and the result of a run (spec/10_state.md R25,
spec/70_reset_and_hazards.md R124), the conditions of the faults (spec/60_exceptions.md R100), the valid states (R12, R13, R25), and
the arithmetic expressions a program spells (spec/42_arithmetic.md R85). -/

namespace Sys2Proof.Machine

/-- The architectural state `(pc, stack, status, cause)` (R25). Of a state that has ended it is the result of the run (R124). -/
structure Arch where
  pc : Addr
  stack : List Word
  status : Status
  cause : Cause
deriving DecidableEq, Repr

def State.arch (s : State) : Arch := { pc := s.pc, stack := s.stack, status := s.status, cause := s.cause }

/-- A run has ended (R124). -/
def State.ended (s : State) : Prop := s.status = .halted ∨ s.status = .faulted

/-- The step at `s` decodes `i` and is neither refused, ended nor held: exactly when R65 lets it execute. -/
structure State.Executes (s : State) (i : Instr) : Prop where
  configWf : s.config.wf = true
  running : s.status = .running
  decodes : decodeNext s = .ok i
  released : awaitsContinue s = false

/-- `sp` is in `0..STACK_DEPTH` (R13). -/
def depthAdmits (depth : StackDepth) (sp : Nat) : Prop :=
  match depth with
  | .unbounded => True
  | .finite slots => sp ≤ slots

/-- The condition of each cause, on the state before the step, as the table of R100 words it. -/
def State.faultCondition (s : State) : Cause → Prop
  | .noFault => False
  | .invalidOpcode =>
    s.codeLen ≤ s.pc.toNat ∨
      ∃ op, s.codeByte? s.pc.toNat = some op ∧ op ≠ 0x00 ∧ op ≠ 0x01 ∧ op ≠ 0x02 ∧ op ≠ 0x60
  | .stackUnderflow =>
    (s.codeByte? s.pc.toNat = some 0x01 ∨ s.codeByte? s.pc.toNat = some 0x02) ∧ s.sp < 2
  | .operandOutOfBounds => s.codeByte? s.pc.toNat = some 0x60 ∧ s.codeLen ≤ s.pc.toNat + 1
  | .stackOverflow =>
    s.codeByte? s.pc.toNat = some 0x60 ∧ s.pc.toNat + 1 < s.codeLen ∧
      ∃ slots, s.config.stackDepth = .finite slots ∧ s.sp = slots

/-- The states the spec allows (R5, R12, R13, R18, R25). -/
structure State.Valid (s : State) : Prop where
  configWf : s.config.wf = true
  pcInRange : s.pc.toNat ≤ s.codeLen
  stackFits : depthAdmits s.config.stackDepth s.sp
  memoryWf : s.memory.wf = true
  runningCause : s.status = .running → s.cause = .noFault
  haltedAtHalt : s.status = .halted → s.cause = .noFault ∧ s.codeByte? s.pc.toNat = some 0x00
  faultedForCause : s.status = .faulted → s.faultCondition s.cause

/-- Two states of the same program and register file in the same architectural state; the flags, the continue signals and the trace
may differ (R19, R71). -/
structure State.SameRun (s t : State) : Prop where
  arch : s.arch = t.arch
  code : s.config.code = t.config.code
  stackDepth : s.config.stackDepth = t.config.stackDepth

end Sys2Proof.Machine

namespace Sys2Proof

/-- The arithmetic expressions a program of pushes, additions and multiplications spells (R85). -/
inductive ArithExpr where
  | lit (b : Byte)
  | add (l r : ArithExpr)
  | mul (l r : ArithExpr)
deriving DecidableEq, Repr

/-- The listing that spells an expression: operands left to right, then the operation. -/
def ArithExpr.listing : ArithExpr → List AsmInstr
  | .lit b => [.push1 b]
  | .add l r => l.listing ++ r.listing ++ [.add]
  | .mul l r => l.listing ++ r.listing ++ [.mul]

/-- The expression's value on unbounded naturals, nothing reduced. -/
def ArithExpr.value : ArithExpr → Nat
  | .lit b => b.toNat
  | .add l r => l.value + r.value
  | .mul l r => l.value * r.value

/-- The stack entries its listing needs at its deepest. -/
def ArithExpr.entries : ArithExpr → Nat
  | .lit _ => 1
  | .add l r => max l.entries (1 + r.entries)
  | .mul l r => max l.entries (1 + r.entries)

end Sys2Proof
end

