-- ==== Sys2Proof/Certificates/Slice0/Obligations.lean ====
section
/-! DEFINITION. The statements about the light-evm core, for the provers. They come from the numbered rules of spec/; each says
which. A statement over states holds for every code, register file depth and flag. -/

open Sys2Proof Sys2Proof.Machine

/-! ### Reset and the host's moves -/

/-- R24: every piece of state and its reset value, for every configuration the host supplies. -/
def Obligations.ResetGivesTheInitialState : Prop :=
  ∀ cfg : Configuration,
    (construct cfg).pc = 0 ∧ (construct cfg).sp = 0 ∧ (∀ i, (construct cfg).slot? i = none) ∧
    (construct cfg).memory = [] ∧ (∀ a, (construct cfg).dataByte? a = none) ∧
    (construct cfg).status = .running ∧ (construct cfg).cause = .noFault ∧ (construct cfg).config = cfg ∧
    State.reset.arch = (construct cfg).arch ∧ State.reset.memory = []

/-- The reset state is valid for every legal configuration, and so is `State.reset`, whose configuration is the model's choice
(notes/assumptions/1.md). -/
def Obligations.ResetStateIsValid : Prop :=
  (∀ cfg : Configuration, cfg.wf = true → (construct cfg).Valid) ∧ State.reset.Valid

/-- Reset applied in any state: the run is discarded and nothing of it survives (R121), and a single-stepping core whose first byte
decodes holds until the host signals (V-E5). That no signal and no trace event is left is the model's choice (notes/assumptions/6.md,
7.md), and so is that the whole configuration is supplied anew (notes/assumptions/20.md). -/
def Obligations.ResetDiscardsTheRun : Prop :=
  ∀ (cfg : Configuration) (s : State), hostReset cfg s = construct cfg ∧
    (hostReset cfg s).continues = 0 ∧ (hostReset cfg s).trace = [] ∧
    (∀ i, cfg.singleStepEnabled = true → decodeNext (hostReset cfg s) = .ok i → isHeld (hostReset cfg s) = true)

/-- The continue signal writes nothing but the count of signals not used up (R66, R72): ignored without single-stepping, counted in a
hold, and otherwise counted exactly if `CONTINUE_LATCHED`. That each early signal counts is the model's choice (notes/assumptions/6.md). -/
def Obligations.ContinueSignalIsPacingOnly : Prop :=
  ∀ s : State,
    (s.config.singleStepEnabled = false → hostContinue s = s) ∧
    (isHeld s = true → hostContinue s = { s with continues := 1 }) ∧
    (s.config.singleStepEnabled = true → isHeld s = false → s.config.continueLatched = false → hostContinue s = s) ∧
    (s.config.singleStepEnabled = true → s.config.continueLatched = true →
      hostContinue s = { s with continues := s.continues + 1 })

/-- The output signals show the registers, with the numbers of R20 and R21, and the slots bottom first (R72). -/
def Obligations.OutputsShowTheRegisters : Prop :=
  (∀ s : State, (outputs s).pc = s.pc ∧ (outputs s).sp = s.sp ∧ (∀ i, (outputs s).x[i]? = s.slot? i) ∧
    (outputs s).status = s.status.bits ∧ (outputs s).cause = s.cause.bits) ∧
  Status.running.bits = 0 ∧ Status.halted.bits = 1 ∧ Status.faulted.bits = 2 ∧
  Cause.noFault.bits = 0 ∧ Cause.invalidOpcode.bits = 1 ∧ Cause.stackUnderflow.bits = 2 ∧
  Cause.operandOutOfBounds.bits = 3 ∧ Cause.stackOverflow.bits = 4

/-- A configuration outside R5's constraints takes no step. U16 of spec/93 refuses too long a code at configuration; that the model
refuses at each step, in every state, is its own placement (notes/assumptions/2.md), and that a zero depth is refused is its reading
(notes/assumptions/3.md). -/
def Obligations.IllegalConfigurationIsRefused : Prop :=
  ∀ s : State,
    (2 ^ 32 - 1 < s.codeLen → step s = .refused .codeTooLong) ∧
    (s.codeLen ≤ 2 ^ 32 - 1 → s.config.stackDepth = .finite 0 → step s = .refused .zeroStackDepth)

/-! ### Decode and encode -/

/-- R49: `Decode` on each of the 256 bytes. -/
def Obligations.DecodeIsTheFixedTable : Prop :=
  ∀ op : Byte, decodeOpcode op =
    if op = 0x00 then some .halt
    else if op = 0x01 then some .add
    else if op = 0x02 then some .mul
    else if op = 0x60 then some .push1
    else none

/-- A few bytes written out from the encodings of R45 and R48 decode to what they stand for (a sanity statement). That a table word has
its first byte in bits 7:0 and its second in bits 15:8, and that its bits from `nbits` on count as 0, is the model's reading of the
table's numbering (notes/assumptions/19.md). `decodeTableWord` gives the instruction without its operand; the last clause shows an
operand byte read. -/
def Obligations.WrittenWordsDecode : Prop :=
  decodeTableWord 8 0b00000000 = some .halt ∧ decodeTableWord 8 0b00000001 = some .add ∧
  decodeTableWord 8 0b00000010 = some .mul ∧ decodeTableWord 16 0b0000010101100000 = some .push1 ∧
  decodeTableWord 8 0b00000011 = none ∧ decodeTableWord 8 0b11100000 = none ∧
  decode [0b01100000, 0b11111111, 0b00000000] = .ok (.push1 0xFF, [0x00])

/-- No two rows of the opcode table select one byte, and no byte but the four is selected (R57). -/
def Obligations.OpcodeRowsAreDisjoint : Prop :=
  ∀ op : Byte,
    (∀ r ∈ opcodeTable, ∀ r' ∈ opcodeTable, r.selects op = true → r'.selects op = true → r = r') ∧
    ((∃ r ∈ opcodeTable, r.selects op = true) ↔ op = 0x00 ∨ op = 0x01 ∨ op = 0x02 ∨ op = 0x60)

/-- Every instruction, with its operand at every value, reads back from its own bytes, whatever follows them (R45, R47, R52). -/
def Obligations.InstructionReadsBackFromItsBytes : Prop :=
  ∀ (line : AsmInstr) (rest : List Byte), decode (encode line ++ rest) = .ok (line, rest)

/-- Decode and encode agree on whole listings, in both directions: a byte sequence disassembles to a listing exactly if it is that
listing's assembly. So each byte sequence has at most one reading from its first byte, and no bit of an encoding is dropped. -/
def Obligations.ListingsAndBytesAgree : Prop :=
  ∀ (lines : List AsmInstr) (bytes : List Byte), disassemble bytes = .ok lines ↔ bytes = assemble lines

/-- R31: a code read returns `code[addr]` inside the code and no value outside. -/
def Obligations.CodeReadsStayInsideTheCode : Prop :=
  ∀ (s : State) (addr : Nat),
    (∀ h : addr < s.config.code.length, s.codeByte? addr = some s.config.code[addr]) ∧
    (s.config.code.length ≤ addr → s.codeByte? addr = none)

/-- R61: `DecodeNext` past the end, on each of the four opcode bytes and on the others, and it reads no state but `pc`
and the one code byte there: not the operand byte. -/
def Obligations.DecodeNextReadsTheByteAtPc : Prop :=
  ∀ s : State,
    (s.codeLen ≤ s.pc.toNat → decodeNext s = .error .invalidOpcode) ∧
    (s.codeByte? s.pc.toNat = some 0x00 → decodeNext s = .ok .halt) ∧
    (s.codeByte? s.pc.toNat = some 0x01 → decodeNext s = .ok .add) ∧
    (s.codeByte? s.pc.toNat = some 0x02 → decodeNext s = .ok .mul) ∧
    (s.codeByte? s.pc.toNat = some 0x60 → decodeNext s = .ok .push1) ∧
    (∀ op, s.codeByte? s.pc.toNat = some op → op ≠ 0x00 → op ≠ 0x01 → op ≠ 0x02 → op ≠ 0x60 →
      decodeNext s = .error .invalidOpcode) ∧
    (∀ t : State, t.pc = s.pc → t.codeByte? s.pc.toNat = s.codeByte? s.pc.toNat → decodeNext t = decodeNext s)

/-! ### The stack and the ALU -/

/-- R14: the slots below `sp` are the whole of the stack, and a slot at or above `sp` holds no value. -/
def Obligations.SlotsDetermineTheStack : Prop :=
  ∀ s t : State,
    (∀ i, s.slot? i = none ↔ s.sp ≤ i) ∧ ((∀ i, s.slot? i = t.slot? i) → s.sp = t.sp ∧ s.stack = t.stack)

/-- R63: `Push(v)`. -/
def Obligations.PushWritesTheSlotAtSp : Prop :=
  ∀ (v : Word) (s : State),
    (∀ slots, s.config.stackDepth = .finite slots → s.sp = slots → push v s = .error .stackOverflow) ∧
    ((∀ slots, s.config.stackDepth = .finite slots → s.sp ≠ slots) →
      ∃ t, push v s = .ok t ∧ t.slot? s.sp = some v ∧ t.sp = s.sp + 1 ∧ (∀ i, i < s.sp → t.slot? i = s.slot? i) ∧
        t = { s with stack := t.stack })

/-- R64: `Pop()`. -/
def Obligations.PopReturnsTheTopSlot : Prop :=
  ∀ s : State,
    (s.sp = 0 → pop s = .error .stackUnderflow) ∧
    (s.sp ≠ 0 →
      ∃ v t, pop s = .ok (v, t) ∧ s.slot? (s.sp - 1) = some v ∧ t.sp = s.sp - 1 ∧
        (∀ i, i < t.sp → t.slot? i = s.slot? i) ∧ t = { s with stack := t.stack })

/-- The ALU's two operations, with the range facts of R84: the exact result reduced modulo 2^32, which is what 32-bit vector addition
and multiplication give. -/
def Obligations.AluComputesModuloWordSize : Prop :=
  ∀ a b : Word,
    aluAdd a b = a + b ∧ a.toNat + b.toNat ≤ 2 ^ 33 - 2 ∧
    (aluAdd a b).toNat = (if a.toNat + b.toNat < 2 ^ 32 then a.toNat + b.toNat else a.toNat + b.toNat - 2 ^ 32) ∧
    aluMul a b = a * b ∧ a.toNat * b.toNat ≤ 2 ^ 64 - 2 ^ 33 + 1 ∧
    aluMul a b = BitVec.extractLsb' 0 32 (BitVec.setWidth 64 a * BitVec.setWidth 64 b)

/-- The algebraic facts of R85. -/
def Obligations.AluObeysRingLaws : Prop :=
  ∀ a b c : Word,
    aluAdd a b = aluAdd b a ∧ aluAdd (aluAdd a b) c = aluAdd a (aluAdd b c) ∧ aluAdd a 0 = a ∧
    aluMul a b = aluMul b a ∧ aluMul (aluMul a b) c = aluMul a (aluMul b c) ∧ aluMul a 1 = a ∧
    aluMul a (aluAdd b c) = aluAdd (aluMul a b) (aluMul a c)

/-- R47: zero-extension keeps the byte's numeric value and leaves bits 31:8 zero, for all 256 bytes, and what a `PUSH1` pushes is the
byte at `pc + 1` so extended. -/
def Obligations.ImmediateIsZeroExtended : Prop :=
  (∀ b : Byte, (zext32 b).toNat = b.toNat ∧ (zext32 b).toNat ≤ 255 ∧ BitVec.extractLsb' 8 24 (zext32 b) = 0 ∧
    BitVec.extractLsb' 0 8 (zext32 b) = b) ∧
  ∀ s t : State, exec .push1 s = .next t → t.status ≠ .faulted →
    ∃ b, s.codeByte? (s.pc.toNat + 1) = some b ∧ t.sp = s.sp + 1 ∧ t.slot? s.sp = some (zext32 b)

/-! ### The four instructions -/

/-- R75: `HALT` completes in every state: `status <- HALTED` and nothing else changes; executed by a step, it ends the run there; in a
single-step hold it waits like any instruction. After the end neither one step nor a run of any length changes anything. That a step
answers a state after the end and in a hold is the model's reading (notes/assumptions/4.md, 6.md). -/
def Obligations.HaltEndsTheRun : Prop :=
  (∀ s : State, exec .halt s = .next { s with status := .halted }) ∧
  (∀ s : State, s.Executes .halt →
    ∃ t, step s = .next t ∧ t.arch = { s.arch with status := .halted } ∧ step t = .next t ∧ ∀ n, run n t = .next t) ∧
  (∀ s : State, s.config.wf = true → isHeld s = true → decodeNext s = .ok .halt → ∃ t, step s = .next t ∧ t.arch = s.arch)

/-- R80: `ADD` replaces the top two entries by their sum modulo 2^32; with fewer than two it raises `StackUnderflow` and changes
nothing else. The premise on the depth is R13's range of `sp`, kept by every step (`StepKeepsStatesValid`). -/
def Obligations.AddReplacesTopTwoBySum : Prop :=
  ∀ s : State,
    (s.sp < 2 → exec .add s = .next { s with status := .faulted, cause := .stackUnderflow }) ∧
    (∀ (a b : Word) (rest : List Word), s.stack = a :: b :: rest → depthAdmits s.config.stackDepth s.sp →
      exec .add s =
        .next { s with stack := BitVec.ofNat 32 ((a.toNat + b.toNat) % 2 ^ 32) :: rest, pc := s.pc + 1 })

/-- R81: `MUL` replaces the top two entries by the low 32 bits of their product; with fewer than two it raises `StackUnderflow` and
changes nothing else. The premise on the depth is R13's range of `sp`. -/
def Obligations.MulReplacesTopTwoByLowProduct : Prop :=
  ∀ s : State,
    (s.sp < 2 → exec .mul s = .next { s with status := .faulted, cause := .stackUnderflow }) ∧
    (∀ (a b : Word) (rest : List Word), s.stack = a :: b :: rest → depthAdmits s.config.stackDepth s.sp →
      exec .mul s =
        .next { s with stack := BitVec.ofNat 32 ((a.toNat * b.toNat) % 2 ^ 32) :: rest, pc := s.pc + 1 })

/-- R90: `PUSH1` without its operand byte, with it and a full register file, and with it and room, whatever the operand byte is. -/
def Obligations.PushImmediatePushesTheNextByte : Prop :=
  ∀ s : State,
    (s.codeLen ≤ s.pc.toNat + 1 →
      exec .push1 s = .next { s with status := .faulted, cause := .operandOutOfBounds }) ∧
    (s.pc.toNat + 1 < s.codeLen → s.config.stackDepth = .finite s.sp →
      exec .push1 s = .next { s with status := .faulted, cause := .stackOverflow }) ∧
    (∀ imm8 : Byte, s.codeByte? (s.pc.toNat + 1) = some imm8 → s.config.stackDepth ≠ .finite s.sp →
      exec .push1 s = .next { s with stack := BitVec.ofNat 32 imm8.toNat :: s.stack, pc := s.pc + 2 })

/-- The frame of `HALT`: it writes `status` and nothing else. -/
def Obligations.HaltFrame : Prop :=
  ∀ s t : State, exec .halt s = .next t →
    t.pc = s.pc ∧ t.sp = s.sp ∧ (∀ i, t.slot? i = s.slot? i) ∧ t.cause = s.cause ∧ t.config = s.config ∧
    t.continues = s.continues ∧ t.trace = s.trace ∧
    (∀ a, t.codeByte? a = s.codeByte? a) ∧ (∀ a, t.dataByte? a = s.dataByte? a)

/-- The frame of `ADD` and `MUL`: besides `pc` and `sp` they write one slot, `x[sp-2]`; a fault writes `status` and `cause` only; no
byte of memory is stored to. -/
def Obligations.AddMulFrame : Prop :=
  ∀ (i : Instr) (s t : State), i = .add ∨ i = .mul → exec i s = .next t →
    (∀ j, j + 2 < s.sp → t.slot? j = s.slot? j) ∧
    (s.sp < 2 → t.pc = s.pc ∧ t.stack = s.stack) ∧
    (2 ≤ s.sp → depthAdmits s.config.stackDepth s.sp → t.sp + 1 = s.sp ∧ t.status = s.status ∧ t.cause = s.cause) ∧
    t.config = s.config ∧ t.continues = s.continues ∧ t.trace = s.trace ∧
    (∀ a, t.codeByte? a = s.codeByte? a) ∧ (∀ a, t.dataByte? a = s.dataByte? a)

/-- The frame of `PUSH1`: besides `pc` and `sp` it writes one slot, `x[sp]`; a fault writes `status` and `cause` only; no byte of memory
is stored to. -/
def Obligations.PushImmediateFrame : Prop :=
  ∀ s t : State, exec .push1 s = .next t →
    (∀ j, j < s.sp → t.slot? j = s.slot? j) ∧
    ((s.codeLen ≤ s.pc.toNat + 1 ∨ s.config.stackDepth = .finite s.sp) → t.pc = s.pc ∧ t.stack = s.stack) ∧
    (s.pc.toNat + 1 < s.codeLen → s.config.stackDepth ≠ .finite s.sp →
      t.sp = s.sp + 1 ∧ t.status = s.status ∧ t.cause = s.cause) ∧
    t.config = s.config ∧ t.continues = s.continues ∧ t.trace = s.trace ∧
    (∀ a, t.codeByte? a = s.codeByte? a) ∧ (∀ a, t.dataByte? a = s.dataByte? a)

/-! ### The step -/

/-- A step runs the decoded instruction: what it adds around `exec` is the use of the continue signal and the trace, and with both
flags clear nothing (R65). -/
def Obligations.StepRunsTheDecodedInstruction : Prop :=
  ∀ (s : State) (i : Instr), s.Executes i →
    step s = onNext traceAfter (exec i (traceBefore (releaseHold s))) ∧
    (s.config.traceEnabled = false → s.config.singleStepEnabled = false → step s = exec i s)

/-- Every step of a legal configuration answers a next state: the model never stops on a legal machine. That it answers a state once the
run has ended (notes/assumptions/4.md), in a hold (notes/assumptions/6.md) and on a fault (notes/assumptions/14.md) is the model's
choice of how to render R106, R66 and R104. -/
def Obligations.LegalStepAnswersNext : Prop :=
  ∀ s : State, s.config.wf = true → ∃ t, step s = .next t

/-- R101: a decode failure faults with `InvalidOpcode` and nothing else changes, with no wait for a continue signal and no trace, whatever
the flags. -/
def Obligations.DecodeFailureFaultsAtOnce : Prop :=
  ∀ s : State, s.config.wf = true → s.status = .running → s.faultCondition .invalidOpcode →
    step s = .next { s with status := .faulted, cause := .invalidOpcode }

/-- R82 at the step: with 0 or 1 entries `ADD` and `MUL` leave `pc`, `sp` and every entry as they were. -/
def Obligations.UnderflowIsPrecise : Prop :=
  ∀ (i : Instr) (s : State), i = .add ∨ i = .mul → s.Executes i → s.sp < 2 →
    ∃ t, step s = .next t ∧ t.status = .faulted ∧ t.cause = .stackUnderflow ∧ t.pc = s.pc ∧ t.sp = s.sp ∧
      (∀ j, t.slot? j = s.slot? j)

/-- R100: a step that is not held faults with a cause exactly if that cause's condition holds of the state before it. -/
def Obligations.FaultsExactlyOnTheirConditions : Prop :=
  ∀ (s : State) (c : Cause), s.Valid → s.status = .running → awaitsContinue s = false →
    ((∃ t, step s = .next t ∧ t.status = .faulted ∧ t.cause = c) ↔ s.faultCondition c)

/-- No two of the fault conditions in R100's table hold of one state: its clause `pc + 1 < CODE_LEN` keeps the causes 3 and 4 apart. So the
conditions name at most one fault for a step. -/
def Obligations.FaultConditionsAreExclusive : Prop :=
  ∀ (s : State) (c c' : Cause), s.faultCondition c → s.faultCondition c' → c = c'

/-- R104: taking a fault writes `status` and `cause` only, and a step that faults leaves every other architectural register, the code and
the memory as they were. -/
def Obligations.FaultsArePrecise : Prop :=
  (∀ (s : State) (c : Cause), s.raise c = { s with status := .faulted, cause := c }) ∧
  ∀ s t : State, s.status = .running → step s = .next t → t.status = .faulted →
    t.pc = s.pc ∧ t.sp = s.sp ∧ (∀ i, t.slot? i = s.slot? i) ∧ t.config = s.config ∧ t.memory = s.memory

/-- A run is left by `HALT` or a fault only: a running machine that is halted by a step was at a `HALT` (R65, R75). -/
def Obligations.HaltedOnlyByHalt : Prop :=
  ∀ s t : State, s.status = .running → step s = .next t → t.status = .halted →
    decodeNext s = .ok .halt ∧ s.codeByte? s.pc.toNat = some 0x00 ∧ awaitsContinue s = false

/-- Terminal states are sticky: no step, and no number of them, changes anything (R106; that the step answers the same state is the
model's reading, notes/assumptions/4.md). -/
def Obligations.TerminalStatesAreSticky : Prop :=
  ∀ s : State, s.config.wf = true → s.ended → step s = .next s ∧ ∀ n, run n s = .next s

/-- Executing the step again from where a run ended gives the same outcome (R106's remark). -/
def Obligations.ReexecutionGivesTheSameOutcome : Prop :=
  ∀ s t : State, s.Valid → s.status = .running → awaitsContinue s = false → step s = .next t → t.ended →
    ∃ u, step { t with status := .running, cause := .noFault, continues := s.continues } = .next u ∧ u.arch = t.arch

/-- R11: only instruction execution writes `pc`, by the instruction's own amount; a step that faults, halts, holds or is not enabled
leaves it. Computed on naturals, so `pc` does not wrap. -/
def Obligations.PcAdvancesByTheInstruction : Prop :=
  ∀ s t : State, s.Valid → step s = .next t →
    t.pc.toNat = s.pc.toNat +
      (if s.status = .running ∧ t.status = .running ∧ isHeld s = false then
        (if decodeNext s = .ok .push1 then 2 else 1) else 0)

/-- The columns of the opcode table hold of the meanings: `pc_advance`, `stack_pops`, `stack_pushes`, `faults` (R57). -/
def Obligations.TableColumnsHoldOfTheMeanings : Prop :=
  ∀ (s t : State) (i : Instr), s.Valid → s.Executes i → step s = .next t →
    ∃ r, i.row = some r ∧
      (t.status ≠ .faulted → t.pc.toNat = s.pc.toNat + r.pcAdvance ∧ t.sp + r.stackPops = s.sp + r.stackPushes) ∧
      (t.status = .faulted → t.cause ∈ faultsOf i)

/-- R34: no instruction, and no step, writes the code space or the data memory; nor any other input of the run (R17, R19). -/
def Obligations.NothingWritesCodeOrMemory : Prop :=
  (∀ (i : Instr) (s t : State), exec i s = .next t →
    t.config = s.config ∧ (∀ a, t.codeByte? a = s.codeByte? a) ∧ (∀ a, t.dataByte? a = s.dataByte? a)) ∧
  (∀ s t : State, step s = .next t →
    t.config = s.config ∧ (∀ a, t.codeByte? a = s.codeByte? a) ∧ (∀ a, t.dataByte? a = s.dataByte? a))

/-- A held step does nothing until the host signals; one signal releases exactly that one step, which uses it up (R66). That a held step
answers the same state is the model's reading (notes/assumptions/6.md). -/
def Obligations.ContinueReleasesOneStep : Prop :=
  ∀ (s : State) (i : Instr), s.config.wf = true → isHeld s = true → decodeNext s = .ok i →
    step s = .next s ∧ step (hostContinue s) = onNext traceAfter (exec i (traceBefore s)) ∧
    ∀ t, step (hostContinue s) = .next t → t.continues = 0

/-- What the trace port presents (R68): nothing with the flag clear; else `(code, pc)` before the execute, and the stack after one that
neither raised nor halted. A failed decode, a hold and a terminal state present nothing. The order of the record is the model's
(notes/assumptions/7.md). -/
def Obligations.TracePortPresentsTheStep : Prop :=
  ∀ s t : State, step s = .next t →
    (∀ i, s.Executes i → s.config.traceEnabled = true → t.status = .running →
      t.trace = .after t.stack :: .before s.config.code s.pc :: s.trace) ∧
    (∀ i, s.Executes i → s.config.traceEnabled = true → t.status ≠ .running →
      t.trace = .before s.config.code s.pc :: s.trace) ∧
    (s.config.traceEnabled = false → t.trace = s.trace) ∧
    ((∀ i, ¬ s.Executes i) → t.trace = s.trace)

/-- The host's placement of an instruction makes the very next step run it, wherever two bytes at `pc` are legal addresses
(the model's own, notes/assumptions/5.md). -/
def Obligations.PlacedInstructionRunsNext : Prop :=
  ∀ (s : State) (nbits w : Nat) (i : Instr), s.config.wf = true → s.pc.toNat + 2 ≤ 2 ^ 32 - 1 →
    decodeTableWord nbits w = some i →
    (s.withFetchWord nbits w).Executes i ∧ (s.withFetchWord nbits w).pc = s.pc ∧
    (s.withFetchWord nbits w).stack = s.stack ∧ (s.withFetchWord nbits w).config.stackDepth = s.config.stackDepth

/-! ### Whole-machine statements -/

/-- Every step keeps a state valid: `pc` in the code (R12), `sp` in the register file (R13), the memory in its canonical form (R18), and
`status` and `cause` telling the truth about `(pc, stack)` (R25). -/
def Obligations.StepKeepsStatesValid : Prop :=
  ∀ s t : State, s.Valid → step s = .next t → t.Valid

/-- Every stack entry has cost two bytes of code (R126): a bound that every step keeps. -/
def Obligations.EntriesCostTwoBytesEach : Prop :=
  ∀ s t : State, s.Valid → 2 * s.sp ≤ s.pc.toNat → step s = .next t → 2 * t.sp ≤ t.pc.toNat

/-- R126: a register file of at least `floor(CODE_LEN / 2)` slots never overflows in a run from reset. -/
def Obligations.DeepEnoughFileNeverOverflows : Prop :=
  ∀ (cfg : Configuration) (n : Nat) (t : State), cfg.wf = true → depthAdmits cfg.stackDepth (cfg.code.length / 2) →
    run n (construct cfg) = .next t → t.cause ≠ .stackOverflow ∧ t.sp ≤ cfg.code.length / 2

/-- A run ends, `HALTED` or `FAULTED`: within `CODE_LEN + 1` steps from reset without single-stepping; within `CODE_LEN - pc + 1` from any valid
state that never holds for want of a signal; and within as many from any valid state, whatever its flags, where the host gives one signal
at each hold as it arises (R66's ordinary run). R70 speaks of the first; the bound from any valid state is inferred from its proof. That
signals are counted, that each releases one step, and what a hold is, is the model's choice (notes/assumptions/6.md). -/
def Obligations.EveryRunEnds : Prop :=
  (∀ cfg : Configuration, cfg.wf = true → cfg.singleStepEnabled = false →
    ∃ t, run (cfg.code.length + 1) (construct cfg) = .next t ∧ t.ended) ∧
  (∀ s : State, s.Valid → (s.config.singleStepEnabled = false ∨ s.codeLen - s.pc.toNat + 1 ≤ s.continues) →
    ∃ t, run (s.codeLen - s.pc.toNat + 1) s = .next t ∧ t.ended) ∧
  ∀ s : State, s.Valid → ∃ t, attendedRun (s.codeLen - s.pc.toNat + 1) s = .next t ∧ t.ended

/-- Two runs of one program agree in every architectural register after every number of steps, whatever the flags, the trace and the number
of signals given, as long as no step is held (after R71, whose list of what the next state depends on lacks `cause`: equal causes are a
premise here, in `SameRun`). That `n` signals in hand release `n` steps is the model's choice (notes/assumptions/6.md). -/
def Obligations.FlagsDoNotChangeTheRun : Prop :=
  ∀ (n : Nat) (s t : State), s.config.wf = true → s.SameRun t →
    (s.config.singleStepEnabled = false ∨ n ≤ s.continues) → (t.config.singleStepEnabled = false ∨ n ≤ t.continues) →
    ∃ s' t', run n s = .next s' ∧ run n t = .next t' ∧ s'.SameRun t'

/-- A run whose every hold the host lifts with one signal as it arises goes through the same architectural states, step by step, as the run
of the same program without single-stepping (R66's "the state sequence of a run is the same with the flag set or clear"). That the signal
is a move between two steps is the model's choice (notes/assumptions/6.md). -/
def Obligations.OneSignalPerHoldGivesTheSameRun : Prop :=
  ∀ (n : Nat) (s t : State), s.config.wf = true → s.SameRun t → t.config.singleStepEnabled = false →
    ∃ s' t', attendedRun n s = .next s' ∧ run n t = .next t' ∧ s'.SameRun t'

/-- R85's consequence: code that spells an arithmetic expression leaves the expression's value, computed on unbounded naturals and
reduced modulo 2^32 once, on top of the stack it found, wherever the code stands and whatever the stack holds, given the slots the
expression needs. -/
def Obligations.ExpressionCodeComputesItsValue : Prop :=
  ∀ (e : ArithExpr) (s : State) (pre post : List Byte), s.config.wf = true → s.status = .running →
    s.config.singleStepEnabled = false → s.config.code = pre ++ assemble e.listing ++ post → s.pc.toNat = pre.length →
    depthAdmits s.config.stackDepth (s.sp + e.entries) →
    ∃ t, run e.listing.length s = .next t ∧
      t.arch = { pc := BitVec.ofNat 32 (pre.length + (assemble e.listing).length),
                 stack := BitVec.ofNat 32 (e.value % 2 ^ 32) :: s.stack, status := .running, cause := s.cause }

/-! ### The loader's text (outside the block) -/

/-- The strict text policy of R56: the digits are exactly `0` to `9`, `a` to `f` and `A` to `F`, with the values 0 to 15; a text is accepted
exactly if, after an optional prefix, it is an even number of digits, and then each pair gives its byte, high digit first, in order. -/
def Obligations.HexTextIsReadStrictly : Prop :=
  (∀ (c : Char) (v : Nat), hexDigit? c = some v ↔
    ['0', '1', '2', '3', '4', '5', '6', '7', '8', '9', 'a', 'b', 'c', 'd', 'e', 'f'][v]? = some c ∨
    ['0', '1', '2', '3', '4', '5', '6', '7', '8', '9', 'A', 'B', 'C', 'D', 'E', 'F'][v]? = some c) ∧
  (∀ digits, loadHex ('0' :: 'x' :: digits) = hexPairs digits ∧ loadHex ('0' :: 'X' :: digits) = hexPairs digits) ∧
  (∀ text, (∀ d, text ≠ '0' :: 'x' :: d) → (∀ d, text ≠ '0' :: 'X' :: d) → loadHex text = hexPairs text) ∧
  (∀ text, (∃ bytes, hexPairs text = .ok bytes) ↔ (text.length % 2 = 0 ∧ ∀ c ∈ text, (hexDigit? c).isSome = true)) ∧
  (∀ text bytes, hexPairs text = .ok bytes → text.length = 2 * bytes.length ∧
    ∀ (k : Nat) (hi lo : Char) (h l : Nat), text[2 * k]? = some hi → text[2 * k + 1]? = some lo →
      hexDigit? hi = some h → hexDigit? lo = some l → bytes[k]? = some (BitVec.ofNat 8 (16 * h + l)))
end

