-- ==== Sys2Proof/Laws/State.lean ====
section
/-! SUPPORT. One lemma for each field and each update of the state, true by rfl. -/

namespace Sys2Proof.Machine

@[simp] theorem State.setStack_pc (s : State) (l : List Word) : (s.setStack l).pc = s.pc := rfl
@[simp] theorem State.setStack_stack (s : State) (l : List Word) : (s.setStack l).stack = l := rfl
@[simp] theorem State.setStack_memory (s : State) (l : List Word) : (s.setStack l).memory = s.memory := rfl
@[simp] theorem State.setStack_status (s : State) (l : List Word) : (s.setStack l).status = s.status := rfl
@[simp] theorem State.setStack_cause (s : State) (l : List Word) : (s.setStack l).cause = s.cause := rfl
@[simp] theorem State.setStack_config (s : State) (l : List Word) : (s.setStack l).config = s.config := rfl
@[simp] theorem State.setStack_continues (s : State) (l : List Word) : (s.setStack l).continues = s.continues := rfl
@[simp] theorem State.setStack_trace (s : State) (l : List Word) : (s.setStack l).trace = s.trace := rfl
@[simp] theorem State.setStack_codeLen (s : State) (l : List Word) : (s.setStack l).codeLen = s.codeLen := rfl
@[simp] theorem State.setStack_sp (s : State) (l : List Word) : (s.setStack l).sp = l.length := rfl
@[simp] theorem State.setStack_codeByte (s : State) (l : List Word) (i : Nat) : (s.setStack l).codeByte? i = s.codeByte? i := rfl
@[simp] theorem State.setStack_dataByte (s : State) (l : List Word) (i : Nat) : (s.setStack l).dataByte? i = s.dataByte? i := rfl

@[simp] theorem State.advancePc_pc (s : State) (n : Nat) : (s.advancePc n).pc = s.pc + BitVec.ofNat 32 n := rfl
@[simp] theorem State.advancePc_stack (s : State) (n : Nat) : (s.advancePc n).stack = s.stack := rfl
@[simp] theorem State.advancePc_memory (s : State) (n : Nat) : (s.advancePc n).memory = s.memory := rfl
@[simp] theorem State.advancePc_status (s : State) (n : Nat) : (s.advancePc n).status = s.status := rfl
@[simp] theorem State.advancePc_cause (s : State) (n : Nat) : (s.advancePc n).cause = s.cause := rfl
@[simp] theorem State.advancePc_config (s : State) (n : Nat) : (s.advancePc n).config = s.config := rfl
@[simp] theorem State.advancePc_continues (s : State) (n : Nat) : (s.advancePc n).continues = s.continues := rfl
@[simp] theorem State.advancePc_trace (s : State) (n : Nat) : (s.advancePc n).trace = s.trace := rfl
@[simp] theorem State.advancePc_codeLen (s : State) (n : Nat) : (s.advancePc n).codeLen = s.codeLen := rfl
@[simp] theorem State.advancePc_sp (s : State) (n : Nat) : (s.advancePc n).sp = s.sp := rfl
@[simp] theorem State.advancePc_codeByte (s : State) (n : Nat) (i : Nat) : (s.advancePc n).codeByte? i = s.codeByte? i := rfl
@[simp] theorem State.advancePc_dataByte (s : State) (n : Nat) (i : Nat) : (s.advancePc n).dataByte? i = s.dataByte? i := rfl
@[simp] theorem State.advancePc_slot (s : State) (n : Nat) (i : Nat) : (s.advancePc n).slot? i = s.slot? i := rfl

@[simp] theorem State.halt_pc (s : State) : (s.halt).pc = s.pc := rfl
@[simp] theorem State.halt_stack (s : State) : (s.halt).stack = s.stack := rfl
@[simp] theorem State.halt_memory (s : State) : (s.halt).memory = s.memory := rfl
@[simp] theorem State.halt_status (s : State) : (s.halt).status = .halted := rfl
@[simp] theorem State.halt_cause (s : State) : (s.halt).cause = s.cause := rfl
@[simp] theorem State.halt_config (s : State) : (s.halt).config = s.config := rfl
@[simp] theorem State.halt_continues (s : State) : (s.halt).continues = s.continues := rfl
@[simp] theorem State.halt_trace (s : State) : (s.halt).trace = s.trace := rfl
@[simp] theorem State.halt_codeLen (s : State) : (s.halt).codeLen = s.codeLen := rfl
@[simp] theorem State.halt_sp (s : State) : (s.halt).sp = s.sp := rfl
@[simp] theorem State.halt_codeByte (s : State) (i : Nat) : (s.halt).codeByte? i = s.codeByte? i := rfl
@[simp] theorem State.halt_dataByte (s : State) (i : Nat) : (s.halt).dataByte? i = s.dataByte? i := rfl
@[simp] theorem State.halt_slot (s : State) (i : Nat) : (s.halt).slot? i = s.slot? i := rfl

@[simp] theorem State.raise_pc (s : State) (c : Cause) : (s.raise c).pc = s.pc := rfl
@[simp] theorem State.raise_stack (s : State) (c : Cause) : (s.raise c).stack = s.stack := rfl
@[simp] theorem State.raise_memory (s : State) (c : Cause) : (s.raise c).memory = s.memory := rfl
@[simp] theorem State.raise_status (s : State) (c : Cause) : (s.raise c).status = .faulted := rfl
@[simp] theorem State.raise_cause (s : State) (c : Cause) : (s.raise c).cause = c := rfl
@[simp] theorem State.raise_config (s : State) (c : Cause) : (s.raise c).config = s.config := rfl
@[simp] theorem State.raise_continues (s : State) (c : Cause) : (s.raise c).continues = s.continues := rfl
@[simp] theorem State.raise_trace (s : State) (c : Cause) : (s.raise c).trace = s.trace := rfl
@[simp] theorem State.raise_codeLen (s : State) (c : Cause) : (s.raise c).codeLen = s.codeLen := rfl
@[simp] theorem State.raise_sp (s : State) (c : Cause) : (s.raise c).sp = s.sp := rfl
@[simp] theorem State.raise_codeByte (s : State) (c : Cause) (i : Nat) : (s.raise c).codeByte? i = s.codeByte? i := rfl
@[simp] theorem State.raise_dataByte (s : State) (c : Cause) (i : Nat) : (s.raise c).dataByte? i = s.dataByte? i := rfl
@[simp] theorem State.raise_slot (s : State) (c : Cause) (i : Nat) : (s.raise c).slot? i = s.slot? i := rfl

@[simp] theorem State.emit_pc (s : State) (e : TraceEvent) : (s.emit e).pc = s.pc := rfl
@[simp] theorem State.emit_stack (s : State) (e : TraceEvent) : (s.emit e).stack = s.stack := rfl
@[simp] theorem State.emit_memory (s : State) (e : TraceEvent) : (s.emit e).memory = s.memory := rfl
@[simp] theorem State.emit_status (s : State) (e : TraceEvent) : (s.emit e).status = s.status := rfl
@[simp] theorem State.emit_cause (s : State) (e : TraceEvent) : (s.emit e).cause = s.cause := rfl
@[simp] theorem State.emit_config (s : State) (e : TraceEvent) : (s.emit e).config = s.config := rfl
@[simp] theorem State.emit_continues (s : State) (e : TraceEvent) : (s.emit e).continues = s.continues := rfl
@[simp] theorem State.emit_trace (s : State) (e : TraceEvent) : (s.emit e).trace = e :: s.trace := rfl
@[simp] theorem State.emit_codeLen (s : State) (e : TraceEvent) : (s.emit e).codeLen = s.codeLen := rfl
@[simp] theorem State.emit_sp (s : State) (e : TraceEvent) : (s.emit e).sp = s.sp := rfl
@[simp] theorem State.emit_codeByte (s : State) (e : TraceEvent) (i : Nat) : (s.emit e).codeByte? i = s.codeByte? i := rfl
@[simp] theorem State.emit_dataByte (s : State) (e : TraceEvent) (i : Nat) : (s.emit e).dataByte? i = s.dataByte? i := rfl
@[simp] theorem State.emit_slot (s : State) (e : TraceEvent) (i : Nat) : (s.emit e).slot? i = s.slot? i := rfl

@[simp] theorem State.addContinue_pc (s : State) : (s.addContinue).pc = s.pc := rfl
@[simp] theorem State.addContinue_stack (s : State) : (s.addContinue).stack = s.stack := rfl
@[simp] theorem State.addContinue_memory (s : State) : (s.addContinue).memory = s.memory := rfl
@[simp] theorem State.addContinue_status (s : State) : (s.addContinue).status = s.status := rfl
@[simp] theorem State.addContinue_cause (s : State) : (s.addContinue).cause = s.cause := rfl
@[simp] theorem State.addContinue_config (s : State) : (s.addContinue).config = s.config := rfl
@[simp] theorem State.addContinue_continues (s : State) : (s.addContinue).continues = s.continues + 1 := rfl
@[simp] theorem State.addContinue_trace (s : State) : (s.addContinue).trace = s.trace := rfl
@[simp] theorem State.addContinue_codeLen (s : State) : (s.addContinue).codeLen = s.codeLen := rfl
@[simp] theorem State.addContinue_sp (s : State) : (s.addContinue).sp = s.sp := rfl
@[simp] theorem State.addContinue_codeByte (s : State) (i : Nat) : (s.addContinue).codeByte? i = s.codeByte? i := rfl
@[simp] theorem State.addContinue_dataByte (s : State) (i : Nat) : (s.addContinue).dataByte? i = s.dataByte? i := rfl
@[simp] theorem State.addContinue_slot (s : State) (i : Nat) : (s.addContinue).slot? i = s.slot? i := rfl

@[simp] theorem State.takeContinue_pc (s : State) : (s.takeContinue).pc = s.pc := rfl
@[simp] theorem State.takeContinue_stack (s : State) : (s.takeContinue).stack = s.stack := rfl
@[simp] theorem State.takeContinue_memory (s : State) : (s.takeContinue).memory = s.memory := rfl
@[simp] theorem State.takeContinue_status (s : State) : (s.takeContinue).status = s.status := rfl
@[simp] theorem State.takeContinue_cause (s : State) : (s.takeContinue).cause = s.cause := rfl
@[simp] theorem State.takeContinue_config (s : State) : (s.takeContinue).config = s.config := rfl
@[simp] theorem State.takeContinue_continues (s : State) : (s.takeContinue).continues = s.continues - 1 := rfl
@[simp] theorem State.takeContinue_trace (s : State) : (s.takeContinue).trace = s.trace := rfl
@[simp] theorem State.takeContinue_codeLen (s : State) : (s.takeContinue).codeLen = s.codeLen := rfl
@[simp] theorem State.takeContinue_sp (s : State) : (s.takeContinue).sp = s.sp := rfl
@[simp] theorem State.takeContinue_codeByte (s : State) (i : Nat) : (s.takeContinue).codeByte? i = s.codeByte? i := rfl
@[simp] theorem State.takeContinue_dataByte (s : State) (i : Nat) : (s.takeContinue).dataByte? i = s.dataByte? i := rfl
@[simp] theorem State.takeContinue_slot (s : State) (i : Nat) : (s.takeContinue).slot? i = s.slot? i := rfl

end Sys2Proof.Machine
end

