-- ==== Sys2Proof/Laws/Ops.lean ====
section
/-! SUPPORT. What the shared operations do, said once: reading, the stack primitives, the ALU, the two operand forms. -/

namespace Sys2Proof.Machine

/-! ### Reading -/

theorem Memory.wf_iff (m : Memory) : m.wf = true ↔ m = [] := by
  cases m with
  | nil => simp [Memory.wf]
  | cons c rest => simp [Memory.wf, Config.memSize]

theorem Memory.read_of_wf {m : Memory} (h : m.wf = true) (addr : Nat) : m.read addr = none := by
  rw [(Memory.wf_iff m).1 h]; rfl

theorem codeByte?_eq_none_iff (s : State) (addr : Nat) : s.codeByte? addr = none ↔ s.codeLen ≤ addr := by
  simp [State.codeByte?, State.codeLen]

theorem lt_codeLen_of_codeByte? {s : State} {addr : Nat} {b : Byte} (h : s.codeByte? addr = some b) : addr < s.codeLen := by
  by_contra hlt
  rw [(codeByte?_eq_none_iff s addr).2 (Nat.le_of_not_lt hlt)] at h
  cases h

/-! ### The stack primitives -/

theorem stackFull_iff (depth : StackDepth) (sp : Nat) : stackFull depth sp = true ↔ ∃ slots, depth = .finite slots ∧ sp = slots := by
  cases depth with
  | unbounded => simp [stackFull]
  | finite slots => simp [stackFull, eq_comm (a := sp)]

theorem push_of_room {v : Word} {s : State} (h : stackFull s.config.stackDepth s.sp = false) :
    push v s = .ok (s.setStack (v :: s.stack)) := by
  simp [push, h]

theorem push_of_full {v : Word} {s : State} (h : stackFull s.config.stackDepth s.sp = true) :
    push v s = .error .stackOverflow := by
  simp [push, h]

/-- All a push can do. -/
theorem push_cases (v : Word) (s : State) :
    (stackFull s.config.stackDepth s.sp = true ∧ push v s = .error .stackOverflow) ∨
    (stackFull s.config.stackDepth s.sp = false ∧ push v s = .ok (s.setStack (v :: s.stack))) := by
  cases h : stackFull s.config.stackDepth s.sp
  · exact .inr ⟨rfl, push_of_room h⟩
  · exact .inl ⟨rfl, push_of_full h⟩

theorem pop_nil {s : State} (h : s.stack = []) : pop s = .error .stackUnderflow := by simp [pop, h]

theorem pop_cons {s : State} {v : Word} {rest : List Word} (h : s.stack = v :: rest) : pop s = .ok (v, s.setStack rest) := by
  simp [pop, h]

/-! ### The ALU -/

theorem aluAdd_eq (a b : Word) : aluAdd a b = a + b := by
  apply BitVec.eq_of_toNat_eq; simp [aluAdd]

theorem aluMul_eq (a b : Word) : aluMul a b = a * b := by
  apply BitVec.eq_of_toNat_eq; simp [aluMul]

/-! ### The operand forms -/

theorem zext32_toNat (b : Byte) : (zext32 b).toNat = b.toNat := by
  have := b.isLt
  simp [zext32]; omega

theorem operandByte?_eq_none_iff (s : State) : s.operandByte? = none ↔ s.codeLen ≤ s.pc.toNat + 1 :=
  codeByte?_eq_none_iff s _

theorem binaryOp_of_short {f : Word → Word → Word} {s : State} (h : s.sp < 2) : binaryOp f s = .error .stackUnderflow := by
  simp [binaryOp, h]

/-- With two entries the operation pops both and pushes their result, as long as the register file with two entries fewer is not
full. -/
theorem binaryOp_of_two {f : Word → Word → Word} {s : State} {right left : Word} {rest : List Word}
    (h : s.stack = right :: left :: rest) (room : stackFull s.config.stackDepth rest.length = false) :
    binaryOp f s = .ok (s.setStack (f left right :: rest)) := by
  have hsp : ¬ s.sp < 2 := by simp [State.sp, h]
  have hpop : pop (s.setStack (left :: rest)) = .ok (left, s.setStack rest) := rfl
  have hpush : push (f left right) (s.setStack rest) = .ok (s.setStack (f left right :: rest)) := by
    rw [push_of_room (by simpa using room)]; rfl
  rw [binaryOp, if_neg hsp, pop_cons h]
  simp only [Except.bind, hpop, hpush]

end Sys2Proof.Machine
end

