-- ==== Sys2Proof/Laws/PerInstr.lean ====
section
/-! SUPPORT. Statements made for each instruction in turn: its opcode byte decodes to it, and its row of the opcode table is the one
that byte selects (spec/30_encoding.md R48, R57). -/

namespace Sys2Proof.Laws.OpcodeRoundTrip

/-- The opcode byte decodes to the instruction, and the instruction's row selects that byte. -/
def Statement (i : Instr) : Prop :=
  decodeOpcode (opcodeOf i) = some i ∧ i.row.map (fun r => r.selects (opcodeOf i)) = some true

theorem halt : Statement .halt := by unfold Statement; decide
theorem add : Statement .add := by unfold Statement; decide
theorem mul : Statement .mul := by unfold Statement; decide
theorem push1 : Statement .push1 := by unfold Statement; decide

end Sys2Proof.Laws.OpcodeRoundTrip
end

