-- ==== Sys2Proof/Laws/Engine.lean ====
section
/-! SUPPORT. What executing an instruction, decoding and the sequencer can do, said once; later proofs cite these lemmas instead of
unfolding the definitions. -/

namespace Sys2Proof.Machine

/-! ### Execute -/

/-- All the operation on the top two entries can do. -/
theorem binaryOp_cases (f : Word → Word → Word) (s : State) :
    (s.sp < 2 ∧ binaryOp f s = .error .stackUnderflow) ∨
    ∃ right left rest, s.stack = right :: left :: rest ∧
      ((stackFull s.config.stackDepth rest.length = true ∧ binaryOp f s = .error .stackOverflow) ∨
        binaryOp f s = .ok (s.setStack (f left right :: rest))) := by
  match h : s.stack with
  | [] => exact .inl ⟨by simp [State.sp, h], binaryOp_of_short (by simp [State.sp, h])⟩
  | [_] => exact .inl ⟨by simp [State.sp, h], binaryOp_of_short (by simp [State.sp, h])⟩
  | right :: left :: rest =>
    refine .inr ⟨right, left, rest, rfl, ?_⟩
    cases room : stackFull s.config.stackDepth rest.length
    · exact .inr (binaryOp_of_two h room)
    · refine .inl ⟨rfl, ?_⟩
      have hsp : ¬ s.sp < 2 := by simp [State.sp, h]
      have hpop : pop (s.setStack (left :: rest)) = .ok (left, s.setStack rest) := rfl
      rw [binaryOp, if_neg hsp, pop_cons h]
      simp only [Except.bind, hpop]
      exact push_of_full (by simpa using room)

/-- Every instruction answers a next state, and that state is one of three: a fault taken, the halt, or a new stack with `pc`
advanced. -/
theorem exec_cases (i : Instr) (s : State) :
    (∃ c, c ≠ .noFault ∧ exec i s = .next (s.raise c)) ∨
    (i = .halt ∧ exec i s = .next s.halt) ∨
    (∃ l n, (n = 1 ∨ n = 2) ∧ exec i s = .next ((s.setStack l).advancePc n)) := by
  cases i with
  | halt => exact .inr (.inl ⟨rfl, rfl⟩)
  | add =>
    obtain ⟨_, h⟩ | ⟨a, b, rest, _, ⟨_, h⟩ | h⟩ := binaryOp_cases aluAdd s
    · exact .inl ⟨.stackUnderflow, by simp, by simp [exec, execAdd, h, Except.map, atomically]⟩
    · exact .inl ⟨.stackOverflow, by simp, by simp [exec, execAdd, h, Except.map, atomically]⟩
    · exact .inr (.inr ⟨aluAdd b a :: rest, 1, .inl rfl, by simp [exec, execAdd, h, Except.map, atomically]⟩)
  | mul =>
    obtain ⟨_, h⟩ | ⟨a, b, rest, _, ⟨_, h⟩ | h⟩ := binaryOp_cases aluMul s
    · exact .inl ⟨.stackUnderflow, by simp, by simp [exec, execMul, h, Except.map, atomically]⟩
    · exact .inl ⟨.stackOverflow, by simp, by simp [exec, execMul, h, Except.map, atomically]⟩
    · exact .inr (.inr ⟨aluMul b a :: rest, 1, .inl rfl, by simp [exec, execMul, h, Except.map, atomically]⟩)
  | push1 =>
    cases ho : s.operandByte? with
    | none => exact .inl ⟨.operandOutOfBounds, by simp, by simp [exec, execPush1, ho, atomically]⟩
    | some imm =>
      obtain ⟨_, h⟩ | ⟨_, h⟩ := push_cases (zext32 imm) s
      · exact .inl ⟨.stackOverflow, by simp, by simp [exec, execPush1, ho, h, Except.map, atomically]⟩
      · exact .inr (.inr ⟨zext32 imm :: s.stack, 2, .inr rfl, by simp [exec, execPush1, ho, h, Except.map, atomically]⟩)

/-- Executing neither reads nor writes the two fields of the host's side: the continue signals and the trace (R19, R68). -/
theorem exec_ports (i : Instr) (s : State) (n : Nat) (tr : List TraceEvent) :
    exec i { s with continues := n, trace := tr } = onNext (fun u => { u with continues := n, trace := tr }) (exec i s) := by
  obtain ⟨pc, stack, mem, st, ca, cfg, co, tr₀⟩ := s
  have two : ∀ f, atomically (⟨pc, stack, mem, st, ca, cfg, n, tr⟩ : State)
        ((binaryOp f ⟨pc, stack, mem, st, ca, cfg, n, tr⟩).map (·.advancePc 1)) =
      onNext (fun u => { u with continues := n, trace := tr })
        (atomically ⟨pc, stack, mem, st, ca, cfg, co, tr₀⟩
          ((binaryOp f ⟨pc, stack, mem, st, ca, cfg, co, tr₀⟩).map (·.advancePc 1))) := by
    intro f
    match stack with
    | [] => rfl
    | [_] => rfl
    | a :: b :: rest =>
      cases h : stackFull cfg.stackDepth rest.length
      · rw [binaryOp_of_two rfl h, binaryOp_of_two rfl h]; rfl
      · simp [binaryOp, State.sp, pop, push, Except.bind, h, State.setStack, Except.map, atomically, State.raise, onNext]
  cases i with
  | halt => rfl
  | add => exact two aluAdd
  | mul => exact two aluMul
  | push1 =>
    simp only [exec, execPush1, State.operandByte?, State.codeByte?, State.operandAddr]
    cases cfg.code[pc.toNat + 1]? with
    | none => rfl
    | some b =>
      cases h : stackFull cfg.stackDepth stack.length <;>
        simp [State.sp, push, h, State.setStack, Except.map, atomically, State.raise, onNext, State.advancePc]

/-! ### Decode -/

/-- Decoding fails in one way only (R61). -/
theorem decodeNext_error {s : State} {c : Cause} (h : decodeNext s = .error c) : c = .invalidOpcode := by
  unfold decodeNext at h
  split at h
  · cases h; rfl
  · split at h <;> cases h
    rfl

/-- The opcode map read backwards: an instruction decodes from its own byte only (R48, R49). -/
theorem decodeOpcode_eq_some_iff (op : Byte) (i : Instr) : decodeOpcode op = some i ↔ op = opcodeOf i := by
  revert op; cases i <;> decide

/-- A decoded instruction is the one whose opcode byte stands at `pc`. -/
theorem decodeNext_ok_iff (s : State) (i : Instr) : decodeNext s = .ok i ↔ s.codeByte? s.pc.toNat = some (opcodeOf i) := by
  unfold decodeNext
  cases s.codeByte? s.pc.toNat with
  | none => simp
  | some op =>
    have hm : decodeOpcode op = some i ↔ _ := decodeOpcode_eq_some_iff op i
    cases hd : decodeOpcode op <;> simp_all

/-! ### The step's parts -/

@[simp] theorem releaseHold_of_off {s : State} (h : s.config.singleStepEnabled = false) : releaseHold s = s := by
  simp [releaseHold, h]

@[simp] theorem traceBefore_of_off {s : State} (h : s.config.traceEnabled = false) : traceBefore s = s := by
  simp [traceBefore, h]

@[simp] theorem traceAfter_of_off {s : State} (h : s.config.traceEnabled = false) : traceAfter s = s := by
  simp [traceAfter, h]

/-- Releasing a hold writes only `continues`. -/
theorem releaseHold_frame (s : State) : ∃ n, releaseHold s = { s with continues := n } := by
  unfold releaseHold; split
  · exact ⟨_, rfl⟩
  · exact ⟨s.continues, rfl⟩

/-- The trace before an execute writes only `trace`. -/
theorem traceBefore_frame (s : State) : ∃ tr, traceBefore s = { s with trace := tr } := by
  unfold traceBefore; split
  · exact ⟨_, rfl⟩
  · exact ⟨s.trace, rfl⟩

/-- The trace after an execute writes only `trace`. -/
theorem traceAfter_frame (s : State) : ∃ tr, traceAfter s = { s with trace := tr } := by
  unfold traceAfter; split
  · exact ⟨_, rfl⟩
  · exact ⟨s.trace, rfl⟩

/-- A legal configuration passes both of the step's checks. -/
theorem config_checks {s : State} (h : s.config.wf = true) : codeLenFits s.codeLen = true ∧ s.config.stackDepth.positive = true := by
  simpa [Configuration.wf, State.codeLen] using h

/-- All a step of a legal configuration can do: stay in a terminal state, raise a decode failure, hold, or execute. -/
theorem step_cases {s : State} (hc : s.config.wf = true) :
    (s.status ≠ .running ∧ step s = .next s) ∨
    (s.status = .running ∧ decodeNext s = .error .invalidOpcode ∧ step s = .next (s.raise .invalidOpcode)) ∨
    (∃ i, s.status = .running ∧ decodeNext s = .ok i ∧ awaitsContinue s = true ∧ step s = .next s) ∨
    (∃ i, s.status = .running ∧ decodeNext s = .ok i ∧ awaitsContinue s = false ∧ step s = executeDecoded exec i s) := by
  obtain ⟨h1, h2⟩ := config_checks hc
  by_cases hr : s.status = .running
  · cases hd : decodeNext s with
    | error c =>
      obtain rfl := decodeNext_error hd
      exact .inr (.inl ⟨hr, rfl, by simp [step, stepWith, h1, h2, hr, hd]⟩)
    | ok i =>
      cases ha : awaitsContinue s with
      | true => exact .inr (.inr (.inl ⟨i, hr, rfl, rfl, by simp [step, stepWith, h1, h2, hr, hd, ha]⟩))
      | false => exact .inr (.inr (.inr ⟨i, hr, rfl, rfl, by simp [step, stepWith, h1, h2, hr, hd, ha]⟩))
  · exact .inl ⟨hr, by simp [step, stepWith, h1, h2, hr]⟩

/-- A step with a next state had a legal configuration. -/
theorem step_next_wf {s t : State} (h : step s = .next t) : s.config.wf = true := by
  unfold step stepWith at h
  split at h
  · cases h
  · split at h
    · cases h
    · simp_all [Configuration.wf, State.codeLen]

/-! ### The run -/

theorem run_succ_of_step {n : Nat} {s t : State} (hr : s.status = .running) (h : step s = .next t) : run (n + 1) s = run n t := by
  simp [run, runWith, hr, h]

theorem run_of_ended {n : Nat} {s : State} (hr : s.status ≠ .running) : run n s = .next s := by
  cases n <;> simp [run, runWith, hr]

end Sys2Proof.Machine
end

