-- ==== Sys2Proof/Laws/Step.lean ====
section
/-! SUPPORT. What one step can do, in the words of Safety: the inversion lemmas that whole-machine claims cite. -/

namespace Sys2Proof.Machine

theorem stackFull_iff_finite_sp (s : State) :
    stackFull s.config.stackDepth s.sp = true ↔ s.config.stackDepth = .finite s.sp := by
  rw [stackFull_iff]
  constructor
  · rintro ⟨n, h, rfl⟩; exact h
  · intro h; exact ⟨_, h, rfl⟩

/-- In a register file that is not over-full, popping two leaves room for one (R63). -/
theorem room_after_two_pops {s : State} {a b : Word} {rest : List Word} (h : s.stack = a :: b :: rest)
    (hd : depthAdmits s.config.stackDepth s.sp) : stackFull s.config.stackDepth rest.length = false := by
  cases hc : s.config.stackDepth with
  | unbounded => rfl
  | finite n =>
    simp only [hc, depthAdmits, State.sp, h, List.length_cons] at hd
    simp only [stackFull, beq_eq_false_iff_ne]
    omega

/-- Decode fails exactly where R100's condition of `InvalidOpcode` holds. -/
theorem decodeNext_fails_iff (s : State) : decodeNext s = .error .invalidOpcode ↔ s.faultCondition .invalidOpcode := by
  have table : ∀ op : Byte, decodeOpcode op = none ↔ op ≠ 0x00 ∧ op ≠ 0x01 ∧ op ≠ 0x02 ∧ op ≠ 0x60 := by decide
  simp only [State.faultCondition, decodeNext]
  cases h : s.codeByte? s.pc.toNat with
  | none => simp [(codeByte?_eq_none_iff s _).1 h]
  | some op =>
    have hlt := lt_codeLen_of_codeByte? h
    have ht := table op
    constructor
    · intro he
      cases hd : decodeOpcode op with
      | none => exact .inr ⟨op, rfl, ht.1 hd⟩
      | some i => simp [hd] at he
    · rintro (hle | ⟨_, ho, hne⟩)
      · omega
      · cases ho; simp only [ht.2 hne]

theorem step_of_executes {s : State} {i : Instr} (h : s.Executes i) : step s = executeDecoded exec i s := by
  obtain ⟨h1, h2⟩ := config_checks h.configWf
  simp [step, stepWith, h1, h2, h.running, h.decodes, h.released]

/-- A step that executes is `exec` but for the host's side. -/
theorem step_of_executes_ports {s : State} {i : Instr} (h : s.Executes i) :
    ∃ u n tr, exec i s = .next u ∧ step s = .next { u with continues := n, trace := tr } := by
  have hu : ∃ u, exec i s = .next u := by
    obtain ⟨c, _, he⟩ | ⟨_, he⟩ | ⟨l, n, _, he⟩ := exec_cases i s <;> exact ⟨_, he⟩
  obtain ⟨u, hu⟩ := hu
  obtain ⟨n, hn⟩ := releaseHold_frame s
  obtain ⟨tr, htr⟩ := traceBefore_frame (releaseHold s)
  obtain ⟨tr', htr'⟩ := traceAfter_frame { u with continues := n, trace := tr }
  refine ⟨u, n, tr', hu, ?_⟩
  rw [step_of_executes h, executeDecoded, htr, hn]
  dsimp only
  rw [exec_ports i s n tr, hu]
  simp only [onNext, htr']

/-- All a step with a next state can do: nothing (ended or held), raise a decode failure, or execute. -/
theorem step_next_cases {s t : State} (ht : step s = .next t) :
    (t = s ∧ (s.status ≠ .running ∨ isHeld s = true)) ∨
    (t = s.raise .invalidOpcode ∧ s.status = .running ∧ s.faultCondition .invalidOpcode) ∨
    (∃ i u n tr, s.Executes i ∧ exec i s = .next u ∧ t = { u with continues := n, trace := tr }) := by
  have hw := step_next_wf ht
  obtain ⟨hr, h⟩ | ⟨hr, hd, h⟩ | ⟨i, hr, hd, ha, h⟩ | ⟨i, hr, hd, ha, _⟩ := step_cases hw
  · rw [h] at ht; cases ht; exact .inl ⟨rfl, .inl hr⟩
  · rw [h] at ht; cases ht; exact .inr (.inl ⟨rfl, hr, (decodeNext_fails_iff s).1 hd⟩)
  · rw [h] at ht; cases ht; exact .inl ⟨rfl, .inr (by simp [isHeld, hr, hd, ha, Except.toBool])⟩
  · have hx : s.Executes i := ⟨hw, hr, hd, ha⟩
    obtain ⟨u, n, tr, hu, hs⟩ := step_of_executes_ports hx
    rw [hs] at ht; cases ht
    exact .inr (.inr ⟨i, u, n, tr, hx, hu, rfl⟩)

/-- All an execute can do in a state whose stack fits its register file: halt, raise one of its own faults where that fault's condition
holds, replace the top two entries, or push. -/
theorem exec_next_cases {s u : State} {i : Instr} (fits : depthAdmits s.config.stackDepth s.sp) (hd : decodeNext s = .ok i)
    (hu : exec i s = .next u) :
    (i = .halt ∧ u = s.halt) ∨
    (∃ c, c ∈ faultsOf i ∧ s.faultCondition c ∧ u = s.raise c) ∨
    (∃ a b rest v, (i = .add ∨ i = .mul) ∧ s.stack = a :: b :: rest ∧ u = (s.setStack (v :: rest)).advancePc 1) ∨
    (∃ v, i = .push1 ∧ s.config.stackDepth ≠ .finite s.sp ∧ s.pc.toNat + 1 < s.codeLen ∧
      u = (s.setStack (v :: s.stack)).advancePc 2) := by
  have hb := (decodeNext_ok_iff s i).1 hd
  cases i with
  | halt => cases hu; exact .inl ⟨rfl, rfl⟩
  | add =>
    obtain ⟨hs, h⟩ | ⟨a, b, rest, hs, ⟨hf, h⟩ | h⟩ := binaryOp_cases aluAdd s
    · simp only [exec, execAdd, h, Except.map, atomically] at hu; cases hu
      exact .inr (.inl ⟨.stackUnderflow, by simp [faultsOf], ⟨.inl hb, hs⟩, rfl⟩)
    · rw [room_after_two_pops hs fits] at hf; cases hf
    · simp only [exec, execAdd, h, Except.map, atomically] at hu; cases hu
      exact .inr (.inr (.inl ⟨a, b, rest, _, .inl rfl, hs, rfl⟩))
  | mul =>
    obtain ⟨hs, h⟩ | ⟨a, b, rest, hs, ⟨hf, h⟩ | h⟩ := binaryOp_cases aluMul s
    · simp only [exec, execMul, h, Except.map, atomically] at hu; cases hu
      exact .inr (.inl ⟨.stackUnderflow, by simp [faultsOf], ⟨.inr hb, hs⟩, rfl⟩)
    · rw [room_after_two_pops hs fits] at hf; cases hf
    · simp only [exec, execMul, h, Except.map, atomically] at hu; cases hu
      exact .inr (.inr (.inl ⟨a, b, rest, _, .inr rfl, hs, rfl⟩))
  | push1 =>
    cases ho : s.operandByte? with
    | none =>
      simp only [exec, execPush1, ho, atomically] at hu; cases hu
      exact .inr (.inl ⟨.operandOutOfBounds, by simp [faultsOf], ⟨hb, (operandByte?_eq_none_iff s).1 ho⟩, rfl⟩)
    | some imm8 =>
      have hlt := lt_codeLen_of_codeByte? ho
      obtain ⟨hf, h⟩ | ⟨hf, h⟩ := push_cases (zext32 imm8) s
      · simp only [exec, execPush1, ho, h, Except.map, atomically] at hu; cases hu
        exact .inr (.inl ⟨.stackOverflow, by simp [faultsOf], ⟨hb, hlt, (stackFull_iff _ _).1 hf⟩, rfl⟩)
      · simp only [exec, execPush1, ho, h, Except.map, atomically] at hu; cases hu
        have hne : s.config.stackDepth ≠ .finite s.sp := by rw [ne_eq, ← stackFull_iff_finite_sp]; simp [hf]
        exact .inr (.inr (.inr ⟨_, rfl, hne, hlt, rfl⟩))

/-! ### The host's signals -/

/-- The continue signal writes only the count (R66). -/
theorem hostContinue_frame (s : State) : ∃ n, hostContinue s = { s with continues := n } := by
  unfold hostContinue; split
  · exact ⟨_, rfl⟩
  · exact ⟨s.continues, rfl⟩

theorem signalHold_frame (s : State) : ∃ n, signalHold s = { s with continues := n } := by
  unfold signalHold; split
  · exact hostContinue_frame s
  · exact ⟨s.continues, rfl⟩

/-- Where the byte decodes, a running core whose hold the host lifts no longer waits. -/
theorem signalHold_releases {s : State} {i : Instr} (hr : s.status = .running) (hd : decodeNext s = .ok i) :
    awaitsContinue (signalHold s) = false := by
  have held : isHeld s = awaitsContinue s := by simp [isHeld, hr, hd, Except.toBool]
  cases ha : awaitsContinue s with
  | false => simp [signalHold, held, ha]
  | true =>
    rw [ha] at held
    have hs : s.config.singleStepEnabled = true := by
      simp only [awaitsContinue, Bool.and_eq_true] at ha
      exact ha.1
    simp [signalHold, held, hostContinue, awaitsContinue, State.addContinue, hs]

@[simp] theorem signalHold_of_off {s : State} (h : s.config.singleStepEnabled = false) : signalHold s = s := by
  simp [signalHold, isHeld, awaitsContinue, h]

theorem attendedRun_succ_of_step {n : Nat} {s t : State} (hr : s.status = .running) (h : step (signalHold s) = .next t) :
    attendedRun (n + 1) s = attendedRun n t := by
  simp [attendedRun, runWith, hr, h]

theorem attendedRun_of_ended {n : Nat} {s : State} (hr : s.status ≠ .running) : attendedRun n s = .next s := by
  cases n <;> simp [attendedRun, runWith, hr]

/-! ### The data memory -/

theorem reset_memory_wf : State.reset.memory.wf = true := rfl

/-- No instruction takes the data memory out of its canonical form: none writes it (R34). -/
theorem exec_keeps_memory_wf {i : Instr} {s t : State} (h : s.memory.wf = true) (ht : exec i s = .next t) : t.memory.wf = true := by
  obtain ⟨c, _, he⟩ | ⟨_, he⟩ | ⟨l, n, _, he⟩ := exec_cases i s <;> rw [he] at ht <;> cases ht <;> simpa using h

/-- No step takes the data memory out of its canonical form. -/
theorem step_keeps_memory_wf {s t : State} (h : s.memory.wf = true) (ht : step s = .next t) : t.memory.wf = true := by
  obtain ⟨rfl, _⟩ | ⟨rfl, _⟩ | ⟨i, u, n, tr, _, hu, rfl⟩ := step_next_cases ht
  · exact h
  · exact h
  · have hk : u.memory.wf = true := exec_keeps_memory_wf h hu
    exact hk

end Sys2Proof.Machine
end

