-- ==== Sys2Proof/Tests/Slice0.lean ====
section
/-! SUPPORT. The model's own tests, expected results from spec/95_test_vectors.md and the encodings of spec/30_encoding.md, and a
witness for the hypotheses of every obligation that has some. -/

namespace Sys2Proof.Tests

open Sys2Proof Sys2Proof.Machine

/-! ### Helpers -/

/-- A running state with the given code, address and stack (bottom first, as the spec writes stacks, R8), no bound, flags clear. -/
def at_ (code : List Byte) (pc : Addr) (bottomFirst : List Word) : State :=
  { construct { Configuration.unsupplied with code := code } with pc := pc, stack := bottomFirst.reverse }

/-- The same with `STACK_DEPTH = n`. -/
def State.withDepth (s : State) (n : Nat) : State := { s with config := { s.config with stackDepth := .finite n } }

/-- The same, single-stepping, with `n` continue signals given. -/
def State.single (s : State) (n : Nat) : State := { s with config := { s.config with singleStepEnabled := true }, continues := n }

/-- The same with the trace on. -/
def State.traced (s : State) : State := { s with config := { s.config with traceEnabled := true } }

/-- The next state of an outcome. -/
def next? : Host.Outcome State Fault Refusal → Option State
  | .next s => some s
  | _ => none

/-- `(status, cause, pc, stack)`, the stack bottom first, as spec/95_test_vectors.md writes an end state. -/
def result? (o : Host.Outcome State Fault Refusal) : Option (Status × Cause × Addr × List Word) :=
  (next? o).map fun s => (s.status, s.cause, s.pc, s.stack.reverse)

/-! ### Well-formedness: each check refuses an ill-formed term (R5) -/

theorem test_code_of_4294967296_bytes_refused : codeLenFits 4294967296 = false := by decide
theorem test_code_of_4294967295_bytes_accepted : codeLenFits 4294967295 = true := by decide
theorem test_zero_depth_refused : StackDepth.positive (.finite 0) = false := by decide
theorem test_configuration_with_zero_depth_refused :
    Configuration.wf { Configuration.unsupplied with stackDepth := .finite 0 } = false := by decide

/-! ### Decode: words written out from R45 and R48 -/

theorem test_decode_halt : decode [0b00000000#8] = .ok (.halt, []) := rfl
theorem test_decode_add : decode [0b00000001#8, 0xFF] = .ok (.add, [0xFF]) := rfl
theorem test_decode_mul : decode [0b00000010#8] = .ok (.mul, []) := rfl
theorem test_decode_push1 : decode [0b01100000#8, 0b10000001#8, 0x00] = .ok (.push1 0x81, [0x00]) := rfl
theorem test_decode_operand_is_data : decode [0x60, 0x60] = .ok (.push1 0x60, []) := rfl
theorem test_decode_past_end : decode [] = .error .pastEnd := rfl
theorem test_decode_operand_missing : decode [0x60] = .error .operandMissing := rfl
/-- V-D11, V-D12: one bit away from `0x00` and from `0x60`. -/
theorem test_decode_neighbours_illegal :
    [0x03, 0x10, 0x20, 0x40, 0x5F, 0x61, 0x62, 0x64, 0x68, 0x70, 0xE0, 0x80, 0xFE, 0xFF].all
      (fun b : Byte => decodeOpcode b == none) = true := by decide
theorem test_table_word_push1 : decodeTableWord 16 0x0560 = some .push1 := by decide
/-- The listing of program P1 (spec/95). -/
theorem test_assemble_p1 :
    assemble [.push1 5, .push1 6, .add, .push1 2, .mul, .halt] = [0x60, 0x05, 0x60, 0x06, 0x01, 0x60, 0x02, 0x02, 0x00] := by decide

/-! ### The instructions -/

/-- V-H3. -/
theorem test_halt_keeps_stack : result? (step (at_ [0x60, 0x01, 0x01, 0x00] 3 [1, 2, 3])) = some (.halted, .noFault, 3, [1, 2, 3]) := by
  decide
/-- V-A9. -/
theorem test_add_top_two : result? (step (at_ [0x01] 0 [9, 0x12345678, 0x9ABCDEF0])) = some (.running, .noFault, 1, [9, 0xACF13568]) := by
  decide
/-- V-A7. -/
theorem test_add_one_entry : result? (step (at_ [0x60, 0x07, 0x01] 2 [7])) = some (.faulted, .stackUnderflow, 2, [7]) := by decide
/-- V-M9. -/
theorem test_mul_top_two : result? (step (at_ [0x02] 0 [9, 0x12345678, 0x9ABCDEF0])) = some (.running, .noFault, 1, [9, 0x242D2080]) := by
  decide
/-- V-M4. -/
theorem test_mul_wraps : result? (step (at_ [0x02] 0 [0xFFFFFFFF, 0xFFFFFFFF])) = some (.running, .noFault, 1, [1]) := by decide
/-- V-P2. -/
theorem test_push1_zero_extends : result? (step (at_ [0x60, 0xFF, 0x00] 0 [])) = some (.running, .noFault, 2, [255]) := by decide
/-- V-P11: the missing operand wins over the full register file. -/
theorem test_push1_operand_before_overflow :
    result? (step (State.withDepth (at_ [0x60] 0 [1, 2]) 2)) = some (.faulted, .operandOutOfBounds, 0, [1, 2]) := by decide

/-! ### The engine -/

/-- V-E2. -/
theorem test_empty_code : result? (step State.reset) = some (.faulted, .invalidOpcode, 0, []) := by decide
/-- V-E4. -/
theorem test_illegal_does_not_wait : result? (step (State.single (at_ [0xFF] 0 []) 0)) = some (.faulted, .invalidOpcode, 0, []) := by decide
/-- V-E5, held. -/
theorem test_hold : next? (step (State.single (at_ [0x00] 0 []) 0)) = some (State.single (at_ [0x00] 0 []) 0) := by decide
/-- V-E6: exactly one signal. -/
theorem test_one_continue :
    (next? (step (hostContinue (State.single (at_ [0x60, 0x01, 0x00] 0 []) 0)))).map (fun s => (s.pc, s.continues, isHeld s)) =
      some (2, 0, true) := by decide
/-- V-E6 with a host that goes on signalling: one signal at each hold ends the run (R66). -/
theorem test_one_signal_per_hold :
    result? (attendedRun 4 (State.single (at_ [0x60, 0x01, 0x00] 0 []) 0)) = some (.halted, .noFault, 2, [1]) := by decide
/-- R68. -/
theorem test_trace :
    (next? (step (State.traced (at_ [0x01] 0 [5, 6])))).map (·.trace) = some [.after [11], .before [0x01] 0] := by decide
/-- V-E8. -/
theorem test_reset_after_fault :
    hostReset { Configuration.unsupplied with code := [0x00] } ((at_ [0x01] 0 [7]).raise .stackUnderflow) = at_ [0x00] 0 [] := by decide
/-- The host's check on one row: a word with its operand byte. -/
theorem test_withFetchWord : result? (step (State.reset.withFetchWord 16 0x0560)) = some (.running, .noFault, 2, [5]) := by decide
/-- Source scenario 1 (P1), by the host's own runner: six steps. -/
theorem test_scenario_1 :
    result? (Host.Core.run core 6 (at_ [0x60, 0x05, 0x60, 0x06, 0x01, 0x60, 0x02, 0x02, 0x00] 0 [])) =
      some (.halted, .noFault, 8, [22]) := by decide
/-- Source scenario 6: the text with a space is refused; without it, it loads (R56). -/
theorem test_scenario_6 :
    loadHex ['0', 'x', '6', '0', '0', '5', ' ', '0', '0'] = .error .invalidBytecode ∧
      loadHex ['0', 'x', '6', '0', 'a', 'F', '0', '0'] = .ok [0x60, 0xAF, 0x00] := ⟨rfl, rfl⟩

/-- R56: "any other character (including whitespace)" is no digit, the neighbours of the three ranges included. -/
theorem test_other_characters_are_no_digits :
    [' ', 'g', 'G', '/', ':', '@', '`', 'x'].all (fun c => hexDigit? c == none) = true := by decide

/-! ### Witnesses: the hypotheses of each obligation can be met -/

theorem exec_witness (i : Instr) (stack : List Word) : (at_ [opcodeOf i] 0 stack).Executes i := by
  refine ⟨rfl, rfl, ?_, rfl⟩
  cases i <;> rfl

/-- A state at the first byte of code, with nothing ended, is valid; used by the witnesses below. -/
theorem valid_witness (code : List Byte) (stack : List Word) (h : codeLenFits code.length = true) : (at_ code 0 stack).Valid := by
  refine ⟨?_, Nat.zero_le _, trivial, rfl, fun _ => rfl, ?_, ?_⟩
  · simp [at_, construct, State.reset, Configuration.unsupplied, Configuration.wf, StackDepth.positive, h]
  · intro h; cases h
  · intro h; cases h

theorem witness_ResetStateIsValid :
    Configuration.wf { Configuration.unsupplied with code := [0xFF], stackDepth := .finite 1 } = true := by decide

/-- V-E5: after reset, single-stepping, at a byte that decodes. -/
theorem witness_ResetDiscardsTheRun :
    ({ Configuration.unsupplied with code := [0x00], singleStepEnabled := true } : Configuration).singleStepEnabled = true ∧
    decodeNext (hostReset { Configuration.unsupplied with code := [0x00], singleStepEnabled := true } (at_ [0x01] 0 [7])) = .ok .halt :=
  ⟨rfl, rfl⟩

theorem witness_ContinueSignalIsPacingOnly :
    (at_ [0x00] 0 []).config.singleStepEnabled = false ∧ isHeld (State.single (at_ [0x00] 0 []) 0) = true ∧
    (isHeld (State.single (at_ [0x00] 0 []) 1) = false ∧ (State.single (at_ [0x00] 0 []) 1).config.continueLatched = false) ∧
    (State.single { (at_ [0x00] 0 []) with config := { Configuration.unsupplied with continueLatched := true } } 1).config.continueLatched
      = true := by decide

theorem witness_IllegalConfigurationIsRefused :
    2 ^ 32 - 1 < (at_ (List.replicate (2 ^ 32) 0) 0 []).codeLen ∧
    ((at_ [] 0 []).codeLen ≤ 2 ^ 32 - 1 ∧ (State.withDepth (at_ [] 0 []) 0).config.stackDepth = .finite 0) := by
  refine ⟨?_, by decide, rfl⟩
  have : (at_ (List.replicate (2 ^ 32) 0) 0 []).codeLen = 2 ^ 32 := List.length_replicate
  omega

theorem witness_CodeReadsStayInsideTheCode : 1 < (at_ [0x60, 0x05] 0 []).codeLen ∧ (at_ [0x60, 0x05] 0 []).codeLen ≤ 2 := by decide

theorem witness_DecodeNextReadsTheByteAtPc :
    (at_ [0x00] 1 []).codeLen ≤ (at_ [0x00] 1 []).pc.toNat ∧ (at_ [0x00] 0 []).codeByte? 0 = some 0x00 ∧
    (at_ [0x01] 0 []).codeByte? 0 = some 0x01 ∧ (at_ [0x02] 0 []).codeByte? 0 = some 0x02 ∧
    (at_ [0x60] 0 []).codeByte? 0 = some 0x60 ∧ (at_ [0x61] 0 []).codeByte? 0 = some 0x61 ∧
    ((at_ [0x60, 0x05] 0 []).pc = (at_ [0x60] 0 []).pc ∧ (at_ [0x60, 0x05] 0 []).codeByte? 0 = (at_ [0x60] 0 []).codeByte? 0) := by
  decide

theorem witness_SlotsDetermineTheStack : ∀ i, (at_ [0x00] 0 [1, 2]).slot? i = (at_ [0x01] 0 [1, 2]).slot? i := fun _ => rfl

theorem witness_PushWritesTheSlotAtSp :
    ((State.withDepth (at_ [] 0 [1]) 1).config.stackDepth = .finite 1 ∧ (State.withDepth (at_ [] 0 [1]) 1).sp = 1) ∧
    (∀ slots, (State.withDepth (at_ [] 0 [1]) 2).config.stackDepth = .finite slots → (State.withDepth (at_ [] 0 [1]) 2).sp ≠ slots) := by
  refine ⟨⟨rfl, rfl⟩, ?_⟩
  intro slots h; cases h; decide

theorem witness_PopReturnsTheTopSlot : (at_ [] 0 []).sp = 0 ∧ (at_ [] 0 [1]).sp ≠ 0 := by decide

theorem witness_ImmediateIsZeroExtended :
    ∃ t, exec .push1 (at_ [0x60, 0xFF] 0 []) = .next t ∧ t.status ≠ .faulted := ⟨_, rfl, by decide⟩

theorem witness_HaltEndsTheRun :
    (at_ [0x00] 0 [22]).Executes .halt ∧
    ((State.single (at_ [0x00] 0 []) 0).config.wf = true ∧ isHeld (State.single (at_ [0x00] 0 []) 0) = true ∧
      decodeNext (State.single (at_ [0x00] 0 []) 0) = .ok .halt) := ⟨exec_witness .halt _, by decide, by decide, rfl⟩

theorem witness_AddReplacesTopTwoBySum :
    (at_ [0x01] 0 [7]).sp < 2 ∧
    ((State.withDepth (at_ [0x01] 0 [5, 6]) 2).stack = [6, 5] ∧ depthAdmits (.finite 2) (State.withDepth (at_ [0x01] 0 [5, 6]) 2).sp) :=
  ⟨by decide, rfl, Nat.le_refl 2⟩

theorem witness_MulReplacesTopTwoByLowProduct :
    (at_ [0x02] 0 [3]).sp < 2 ∧
    ((State.withDepth (at_ [0x02] 0 [11, 2]) 2).stack = [2, 11] ∧ depthAdmits (.finite 2) (State.withDepth (at_ [0x02] 0 [11, 2]) 2).sp) :=
  ⟨by decide, rfl, Nat.le_refl 2⟩

theorem witness_PushImmediatePushesTheNextByte :
    (at_ [0x60] 0 []).codeLen ≤ (at_ [0x60] 0 []).pc.toNat + 1 ∧
    ((at_ [0x60, 0x03] 0 [1, 2]).pc.toNat + 1 < (at_ [0x60, 0x03] 0 [1, 2]).codeLen ∧
      (State.withDepth (at_ [0x60, 0x03] 0 [1, 2]) 2).config.stackDepth = .finite (at_ [0x60, 0x03] 0 [1, 2]).sp) ∧
    ((State.withDepth (at_ [0x60, 0x03] 0 [1, 2]) 3).codeByte? 1 = some 0x03 ∧
      (State.withDepth (at_ [0x60, 0x03] 0 [1, 2]) 3).config.stackDepth ≠ .finite (at_ [0x60, 0x03] 0 [1, 2]).sp) := by decide

theorem witness_HaltFrame : ∃ t, exec .halt (at_ [0x00] 0 [1]) = .next t := ⟨_, rfl⟩

theorem witness_AddMulFrame :
    (∃ t, exec .add (at_ [0x01] 0 [9, 5, 6]) = .next t ∧ 0 + 2 < (at_ [0x01] 0 [9, 5, 6]).sp) ∧
    (∃ t, exec .mul (at_ [0x02] 0 [7]) = .next t ∧ (at_ [0x02] 0 [7]).sp < 2) ∧
    (∃ t, exec .mul (State.withDepth (at_ [0x02] 0 [5, 6]) 2) = .next t ∧ 2 ≤ (at_ [0x02] 0 [5, 6]).sp ∧
      depthAdmits (.finite 2) (at_ [0x02] 0 [5, 6]).sp) :=
  ⟨⟨_, rfl, by decide⟩, ⟨_, rfl, by decide⟩, ⟨_, rfl, by decide, Nat.le_refl 2⟩⟩

theorem witness_PushImmediateFrame :
    (∃ t, exec .push1 (at_ [0x60, 0x05] 0 [1]) = .next t ∧ 0 < (at_ [0x60, 0x05] 0 [1]).sp ∧
      (at_ [0x60, 0x05] 0 [1]).pc.toNat + 1 < (at_ [0x60, 0x05] 0 [1]).codeLen ∧
      (at_ [0x60, 0x05] 0 [1]).config.stackDepth ≠ .finite (at_ [0x60, 0x05] 0 [1]).sp) ∧
    (∃ t, exec .push1 (at_ [0x60] 0 [1]) = .next t ∧ (at_ [0x60] 0 [1]).codeLen ≤ (at_ [0x60] 0 [1]).pc.toNat + 1) :=
  ⟨⟨_, rfl, by decide, by decide, by decide⟩, ⟨_, rfl, by decide⟩⟩

theorem witness_StepRunsTheDecodedInstruction :
    (at_ [0x01] 0 [5, 6]).Executes .add ∧ (at_ [0x01] 0 [5, 6]).config.traceEnabled = false ∧
    (at_ [0x01] 0 [5, 6]).config.singleStepEnabled = false := ⟨exec_witness .add _, rfl, rfl⟩

theorem witness_LegalStepAnswersNext : (State.withDepth (at_ [0xFF] 9 [1, 2]) 1).config.wf = true := by decide

theorem witness_DecodeFailureFaultsAtOnce :
    ((at_ [] 0 []).config.wf = true ∧ (at_ [] 0 []).status = .running ∧ (at_ [] 0 []).faultCondition .invalidOpcode) ∧
    (State.single (at_ [0xFF] 0 []) 0).faultCondition .invalidOpcode :=
  ⟨⟨rfl, rfl, .inl (Nat.le_refl 0)⟩, .inr ⟨0xFF, rfl, by decide, by decide, by decide, by decide⟩⟩

theorem witness_UnderflowIsPrecise :
    ((at_ [0x01] 0 [7]).Executes .add ∧ (at_ [0x01] 0 [7]).sp < 2) ∧ ((at_ [0x02] 0 []).Executes .mul ∧ (at_ [0x02] 0 []).sp < 2) :=
  ⟨⟨exec_witness .add _, by decide⟩, ⟨exec_witness .mul _, by decide⟩⟩

theorem witness_FaultsExactlyOnTheirConditions :
    (at_ [0x01] 0 [7]).Valid ∧ (at_ [0x01] 0 [7]).status = .running ∧ awaitsContinue (at_ [0x01] 0 [7]) = false ∧
    (at_ [0x01] 0 [7]).faultCondition .stackUnderflow :=
  ⟨valid_witness _ _ (by decide), rfl, by decide, .inl rfl, by decide⟩

theorem witness_FaultConditionsAreExclusive : (at_ [0x60] 0 []).faultCondition .operandOutOfBounds := ⟨rfl, by decide⟩

theorem witness_FaultsArePrecise :
    (at_ [0x01] 0 [7]).status = .running ∧ ∃ t, step (at_ [0x01] 0 [7]) = .next t ∧ t.status = .faulted := ⟨rfl, _, rfl, rfl⟩

theorem witness_HaltedOnlyByHalt :
    (at_ [0x00] 0 []).status = .running ∧ ∃ t, step (at_ [0x00] 0 []) = .next t ∧ t.status = .halted := ⟨rfl, _, rfl, rfl⟩

theorem witness_TerminalStatesAreSticky :
    (at_ [0x00] 0 []).halt.config.wf = true ∧ (at_ [0x00] 0 []).halt.ended ∧ ((at_ [0x01] 0 []).raise .stackUnderflow).ended :=
  ⟨rfl, .inl rfl, .inr rfl⟩

theorem witness_ReexecutionGivesTheSameOutcome :
    (at_ [0x01] 0 [7]).Valid ∧ (at_ [0x01] 0 [7]).status = .running ∧ awaitsContinue (at_ [0x01] 0 [7]) = false ∧
    ∃ t, step (at_ [0x01] 0 [7]) = .next t ∧ t.ended := ⟨valid_witness _ _ (by decide), rfl, by decide, _, rfl, .inr rfl⟩

theorem witness_PcAdvancesByTheInstruction :
    (at_ [0x60, 0x05] 0 []).Valid ∧ ∃ t, step (at_ [0x60, 0x05] 0 []) = .next t ∧ t.pc = 2 :=
  ⟨valid_witness _ _ (by decide), _, rfl, rfl⟩

theorem witness_TableColumnsHoldOfTheMeanings :
    ((at_ [0x02] 0 [3, 4]).Valid ∧ (at_ [0x02] 0 [3, 4]).Executes .mul ∧
      ∃ t, step (at_ [0x02] 0 [3, 4]) = .next t ∧ t.status ≠ .faulted) ∧
    ((at_ [0x60] 0 []).Valid ∧ (at_ [0x60] 0 []).Executes .push1 ∧ ∃ t, step (at_ [0x60] 0 []) = .next t ∧ t.status = .faulted) :=
  ⟨⟨valid_witness _ _ (by decide), exec_witness .mul _, _, rfl, by decide⟩,
   ⟨valid_witness _ _ (by decide), exec_witness .push1 _, _, rfl, rfl⟩⟩

theorem witness_NothingWritesCodeOrMemory :
    (∃ t, exec .add (at_ [0x01] 0 [5, 6]) = .next t) ∧ ∃ t, step (at_ [0x01] 0 [5, 6]) = .next t := ⟨⟨_, rfl⟩, ⟨_, rfl⟩⟩

theorem witness_ContinueReleasesOneStep :
    (State.single (at_ [0x01] 0 [5, 6]) 0).config.wf = true ∧ isHeld (State.single (at_ [0x01] 0 [5, 6]) 0) = true ∧
    decodeNext (State.single (at_ [0x01] 0 [5, 6]) 0) = .ok .add ∧
    ∃ t, step (hostContinue (State.single (at_ [0x01] 0 [5, 6]) 0)) = .next t := ⟨by decide, by decide, rfl, _, rfl⟩

theorem witness_TracePortPresentsTheStep :
    (∃ t, step (State.traced (at_ [0x01] 0 [5, 6])) = .next t ∧ (State.traced (at_ [0x01] 0 [5, 6])).Executes .add ∧
      (State.traced (at_ [0x01] 0 [5, 6])).config.traceEnabled = true ∧ t.status = .running) ∧
    (∃ t, step (State.traced (at_ [0x00] 0 [])) = .next t ∧ (State.traced (at_ [0x00] 0 [])).Executes .halt ∧ t.status ≠ .running) ∧
    (∃ t, step (at_ [0x00] 0 []) = .next t ∧ (at_ [0x00] 0 []).config.traceEnabled = false) ∧
    (∃ t, step (State.traced (at_ [0xFF] 0 [])) = .next t ∧ ∀ i, ¬ (State.traced (at_ [0xFF] 0 [])).Executes i) := by
  refine ⟨⟨_, rfl, ⟨rfl, rfl, rfl, rfl⟩, rfl, rfl⟩, ⟨_, rfl, ⟨rfl, rfl, rfl, rfl⟩, by decide⟩, ⟨_, rfl, rfl⟩, ⟨_, rfl, ?_⟩⟩
  intro i h; cases i <;> cases h.decodes

theorem witness_PlacedInstructionRunsNext :
    State.reset.config.wf = true ∧ State.reset.pc.toNat + 2 ≤ 2 ^ 32 - 1 ∧ decodeTableWord 8 0x01 = some .add ∧
    (at_ [] 0xFFFFFFFD []).pc.toNat + 2 = 2 ^ 32 - 1 := by decide

theorem witness_StepKeepsStatesValid : (at_ [0x60, 0x05] 0 []).Valid ∧ ∃ t, step (at_ [0x60, 0x05] 0 []) = .next t :=
  ⟨valid_witness _ _ (by decide), _, rfl⟩

theorem witness_EntriesCostTwoBytesEach :
    (at_ [0x60, 0x05] 0 []).Valid ∧ 2 * (at_ [0x60, 0x05] 0 []).sp ≤ (at_ [0x60, 0x05] 0 []).pc.toNat ∧
    ∃ t, step (at_ [0x60, 0x05] 0 []) = .next t := ⟨valid_witness _ _ (by decide), by decide, _, rfl⟩

theorem witness_DeepEnoughFileNeverOverflows :
    Configuration.wf { Configuration.unsupplied with code := [0x60, 0x05], stackDepth := .finite 1 } = true ∧
    depthAdmits (.finite 1) (([0x60, 0x05] : List Byte).length / 2) ∧
    ∃ t, run 2 (construct { Configuration.unsupplied with code := [0x60, 0x05], stackDepth := .finite 1 }) = .next t :=
  ⟨by decide, Nat.le_refl 1, _, rfl⟩

theorem witness_EveryRunEnds :
    (Configuration.wf { Configuration.unsupplied with code := [0x00] } = true ∧
      ({ Configuration.unsupplied with code := [0x00] } : Configuration).singleStepEnabled = false) ∧
    (at_ [0x60, 0x05] 0 []).Valid ∧ (at_ [0x60, 0x05] 0 []).config.singleStepEnabled = false ∧
    (State.single (at_ [0x60, 0x05] 0 []) 3).codeLen - (State.single (at_ [0x60, 0x05] 0 []) 3).pc.toNat + 1 ≤
      (State.single (at_ [0x60, 0x05] 0 []) 3).continues :=
  ⟨⟨by decide, rfl⟩, valid_witness _ _ (by decide), rfl, by decide⟩

/-- A valid state in a single-step hold with no signal in hand: the last clause's ordinary run. -/
theorem witness_EveryRunEnds_held :
    (State.single (at_ [0x60, 0x05] 0 []) 0).Valid ∧ isHeld (State.single (at_ [0x60, 0x05] 0 []) 0) = true ∧
    (State.single (at_ [0x60, 0x05] 0 []) 0).config.continueLatched = false := by
  refine ⟨⟨by decide, by decide, trivial, rfl, fun _ => rfl, ?_, ?_⟩, by decide, rfl⟩ <;> intro h <;> cases h

theorem witness_OneSignalPerHoldGivesTheSameRun :
    (State.single (at_ [0x60, 0x05] 0 []) 0).config.wf = true ∧
    (State.single (at_ [0x60, 0x05] 0 []) 0).SameRun (at_ [0x60, 0x05] 0 []) ∧
    (at_ [0x60, 0x05] 0 []).config.singleStepEnabled = false := ⟨by decide, ⟨rfl, rfl, rfl⟩, rfl⟩

theorem witness_FlagsDoNotChangeTheRun :
    (at_ [0x60, 0x05] 0 []).config.wf = true ∧ (at_ [0x60, 0x05] 0 []).SameRun (State.traced (State.single (at_ [0x60, 0x05] 0 []) 2)) ∧
    (at_ [0x60, 0x05] 0 []).config.singleStepEnabled = false ∧ 2 ≤ (State.traced (State.single (at_ [0x60, 0x05] 0 []) 2)).continues :=
  ⟨by decide, ⟨rfl, rfl, rfl⟩, rfl, by decide⟩

/-- The expression `2 + 3` at address 1, on a stack that holds one entry, in a register file of exactly the slots it needs. -/
theorem witness_ExpressionCodeComputesItsValue :
    let e : ArithExpr := .add (.lit 2) (.lit 3)
    let s := State.withDepth (at_ [0xFF, 0x60, 0x02, 0x60, 0x03, 0x01, 0x00] 1 [9]) 3
    s.config.wf = true ∧ s.status = .running ∧ s.config.singleStepEnabled = false ∧
    s.config.code = [0xFF] ++ assemble e.listing ++ [0x00] ∧ s.pc.toNat = ([0xFF] : List Byte).length ∧
    depthAdmits s.config.stackDepth (s.sp + e.entries) :=
  ⟨by decide, rfl, rfl, rfl, rfl, Nat.le_refl 3⟩

theorem witness_HexTextIsReadStrictly :
    (∀ d, (['6', '0'] : List Char) ≠ '0' :: 'x' :: d) ∧ (∀ d, (['6', '0'] : List Char) ≠ '0' :: 'X' :: d) ∧
    hexPairs ['6', 'f'] = .ok [0x6F] ∧ (['6', 'f'] : List Char)[2 * 0]? = some '6' ∧ (['6', 'f'] : List Char)[2 * 0 + 1]? = some 'f' ∧
    hexDigit? '6' = some 6 ∧ hexDigit? 'f' = some 15 := by
  refine ⟨fun d h => ?_, fun d h => ?_, rfl, rfl, rfl, rfl, rfl⟩ <;> cases h

end Sys2Proof.Tests
end

/-! ### Reset and the advance of `pc` (spec/10_state.md R11, R12, R24) -/

namespace Sys2Proof.Machine

/-- Settles O1: every field of `construct` is `State.reset`'s, but for the configuration; no slot and no data byte exists, since the
stack and the data memory are empty. -/
theorem resetGivesTheInitialState : Obligations.ResetGivesTheInitialState := by
  intro cfg
  have noSlot : ∀ i, (construct cfg).slot? i = none := fun _ => List.getElem?_nil
  have noData : ∀ a, (construct cfg).dataByte? a = none := Memory.read_of_wf reset_memory_wf
  exact ⟨rfl, rfl, noSlot, rfl, noData, rfl, rfl, rfl, rfl, rfl⟩

/-- In a legal configuration every code address fits `pc` (R12). -/
theorem codeLen_lt_of_wf {s : State} (h : s.config.wf = true) : s.codeLen < 2 ^ 32 := by
  have hfits : s.codeLen ≤ 2 ^ Config.pcBits - 1 := by simpa [codeLenFits] using (config_checks h).1
  rw [Config.pcBits] at hfits
  omega

/-- An advance that stays below 2^32 is one on naturals (R11, R12). -/
theorem advancePc_toNat {s : State} {n : Nat} (h : s.pc.toNat + n < 2 ^ 32) : (s.advancePc n).pc.toNat = s.pc.toNat + n := by
  rw [State.advancePc_pc, BitVec.toNat_add, BitVec.toNat_ofNat, Nat.add_mod_mod, Nat.mod_eq_of_lt h]

theorem State.Executes.not_held {s : State} {i : Instr} (h : s.Executes i) : isHeld s = false := by
  simp [isHeld, h.released]

/-- An executed instruction's opcode byte lies in the code. -/
theorem State.Executes.pc_lt_codeLen {s : State} {i : Instr} (h : s.Executes i) : s.pc.toNat < s.codeLen :=
  lt_codeLen_of_codeByte? ((decodeNext_ok_iff s i).1 h.decodes)

/-- R11 for one executed instruction: where it leaves the machine running it has completed and advances `pc` by its own amount, without
a wrap, since every byte of it lies in the code. A halt and a fault leave `pc`. -/
theorem exec_pc_toNat {s u : State} {i : Instr} (fits : depthAdmits s.config.stackDepth s.sp) (hx : s.Executes i)
    (hu : exec i s = .next u) :
    u.pc.toNat = s.pc.toNat + (if u.status = .running then (if i = .push1 then 2 else 1) else 0) := by
  have hlen := codeLen_lt_of_wf hx.configWf
  have hpc := hx.pc_lt_codeLen
  obtain ⟨_, rfl⟩ | ⟨c, _, _, rfl⟩ | ⟨_, _, rest, v, hi, _, rfl⟩ | ⟨v, rfl, _, hop, rfl⟩ := exec_next_cases fits hx.decodes hu
  case inl => simp
  case inr.inl => simp
  case inr.inr.inl =>
    have hne : i ≠ .push1 := by rintro rfl; simp at hi
    have hadv : ((s.setStack (v :: rest)).advancePc 1).pc.toNat = s.pc.toNat + 1 :=
      advancePc_toNat (by rw [State.setStack_pc]; omega)
    simp [hadv, hx.running, hne, -State.advancePc_pc]
  case inr.inr.inr =>
    have hadv : ((s.setStack (v :: s.stack)).advancePc 2).pc.toNat = s.pc.toNat + 2 :=
      advancePc_toNat (by rw [State.setStack_pc]; omega)
    simp [hadv, hx.running, -State.advancePc_pc]

/-- Settles O37, by the cases of a step: one that is ended or held and one that fails to decode leave `pc`; one that executes advances it
as `exec_pc_toNat` says. -/
theorem pcAdvancesByTheInstruction : Obligations.PcAdvancesByTheInstruction := by
  intro s t hv ht
  obtain ⟨rfl, hidle⟩ | ⟨rfl, _, _⟩ | ⟨i, u, n, tr, hx, hu, rfl⟩ := step_next_cases ht
  · have hno : ¬ (t.status = .running ∧ t.status = .running ∧ isHeld t = false) := by
      rintro ⟨hr, _, hh⟩
      simp [hr, hh] at hidle
    rw [if_neg hno, Nat.add_zero]
  · simp
  · simpa [hx.running, hx.not_held, hx.decodes] using exec_pc_toNat hv.stackFits hx hu

end Sys2Proof.Machine

/-! ### Code and data memory are never written (spec/20_memory.md R34) -/

namespace Sys2Proof.Machine

/-- The three forms of an execute's next state, a fault taken, the halt, a new stack with `pc` advanced, all keep both fields. -/
theorem exec_keeps_config_and_memory {i : Instr} {s t : State} (ht : exec i s = .next t) :
    t.config = s.config ∧ t.memory = s.memory := by
  obtain ⟨c, _, he⟩ | ⟨_, he⟩ | ⟨l, n, _, he⟩ := exec_cases i s
  all_goals
    rw [he] at ht
    cases ht
    exact ⟨rfl, rfl⟩

/-- A step's own actions, the hold, the trace and a decode failure, write neither field, so it keeps them as its execute does. -/
theorem step_keeps_config_and_memory {s t : State} (ht : step s = .next t) : t.config = s.config ∧ t.memory = s.memory := by
  obtain ⟨rfl, _⟩ | ⟨rfl, _⟩ | ⟨i, u, n, tr, _, hu, rfl⟩ := step_next_cases ht
  · exact ⟨rfl, rfl⟩
  · exact ⟨State.raise_config s _, State.raise_memory s _⟩
  · obtain ⟨hcfg, hmem⟩ := exec_keeps_config_and_memory hu
    exact ⟨hcfg, hmem⟩

/-- A code byte is read from the configuration alone (R31). -/
theorem codeByte?_congr {s t : State} (h : t.config = s.config) (a : Nat) : t.codeByte? a = s.codeByte? a := by
  rw [State.codeByte?, State.codeByte?, h]

/-- A data byte is read from the data memory alone (R30). -/
theorem dataByte?_congr {s t : State} (h : t.memory = s.memory) (a : Nat) : t.dataByte? a = s.dataByte? a := by
  rw [State.dataByte?, State.dataByte?, h]

/-- Settles O39: an execute and a step keep the configuration, which holds the code, and the data memory, so every byte of either reads
as before. -/
theorem nothingWritesCodeOrMemory : Obligations.NothingWritesCodeOrMemory := by
  constructor
  · intro i s t ht
    obtain ⟨hcfg, hmem⟩ := exec_keeps_config_and_memory ht
    exact ⟨hcfg, codeByte?_congr hcfg, dataByte?_congr hmem⟩
  · intro s t ht
    obtain ⟨hcfg, hmem⟩ := step_keeps_config_and_memory ht
    exact ⟨hcfg, codeByte?_congr hcfg, dataByte?_congr hmem⟩

end Sys2Proof.Machine

/-! ### The opcode byte and the immediate (spec/30_encoding.md R47, R49) -/

namespace Sys2Proof.Machine

/-- The illegal bytes are those that are no instruction's opcode byte (R50). -/
theorem decodeOpcode_eq_none_iff (op : Byte) : decodeOpcode op = none ↔ ∀ i, op ≠ opcodeOf i := by
  simp only [Option.eq_none_iff_forall_ne_some, ne_eq, decodeOpcode_eq_some_iff]

/-- Settles O7: each of the four bytes is the opcode byte of its instruction, and a byte that is none of them is illegal. -/
theorem decodeIsTheFixedTable : Obligations.DecodeIsTheFixedTable := by
  intro op
  split_ifs with halt add mul push1
  · exact (decodeOpcode_eq_some_iff op .halt).2 halt
  · exact (decodeOpcode_eq_some_iff op .add).2 add
  · exact (decodeOpcode_eq_some_iff op .mul).2 mul
  · exact (decodeOpcode_eq_some_iff op .push1).2 push1
  · rw [decodeOpcode_eq_none_iff]
    intro i
    cases i with
    | halt => exact halt
    | add => exact add
    | mul => exact mul
    | push1 => exact push1

/-- The model's zero-extension, which goes through naturals, is the bit-vector one. -/
theorem zext32_eq_setWidth (b : Byte) : zext32 b = b.setWidth 32 := by
  rw [zext32, BitVec.ofNat_toNat]

/-- Bits 31:8 of a zero-extended byte are zero: its value is below 2^8. -/
theorem zext32_high_bits (b : Byte) : BitVec.extractLsb' 8 24 (zext32 b) = 0 := by
  apply BitVec.eq_of_toNat_eq
  rw [BitVec.extractLsb'_toNat, zext32_toNat, Nat.shiftRight_eq_div_pow, Nat.div_eq_of_lt b.isLt]
  rfl

/-- Bits 7:0 of a zero-extended byte are the byte. -/
theorem zext32_low_bits (b : Byte) : BitVec.extractLsb' 0 8 (zext32 b) = b := by
  rw [zext32_eq_setWidth, ← BitVec.setWidth_eq_extractLsb' (by decide),
    BitVec.setWidth_setWidth_of_le _ (by decide), BitVec.setWidth_eq]

/-- All a `PUSH1` can do, in the order of R90 and R105: miss its operand byte, find the register file full, or push that byte
zero-extended. -/
theorem exec_push1_cases (s : State) :
    (s.operandByte? = none ∧ exec .push1 s = .next (s.raise .operandOutOfBounds)) ∨
    ∃ b, s.operandByte? = some b ∧
      ((stackFull s.config.stackDepth s.sp = true ∧ exec .push1 s = .next (s.raise .stackOverflow)) ∨
       (stackFull s.config.stackDepth s.sp = false ∧
        exec .push1 s = .next ((s.setStack (zext32 b :: s.stack)).advancePc 2))) := by
  cases ho : s.operandByte? with
  | none => exact .inl ⟨rfl, by simp [exec, execPush1, ho, atomically]⟩
  | some b =>
    refine .inr ⟨b, rfl, ?_⟩
    obtain ⟨full, hp⟩ | ⟨room, hp⟩ := push_cases (zext32 b) s
    · exact .inl ⟨full, by simp [exec, execPush1, ho, hp, Except.map, atomically]⟩
    · exact .inr ⟨room, by simp [exec, execPush1, ho, hp, Except.map, atomically]⟩

/-- The pushed word stands in the slot that was the lowest free one (R13, R63). -/
theorem setStack_cons_slot_sp (s : State) (v : Word) : (s.setStack (v :: s.stack)).slot? s.sp = some v := by
  simp [State.slot?, State.sp]

/-- Settles O19: the four facts about the zero-extended byte are lemmas above; a `PUSH1` that does not fault is in the last case of
`exec_push1_cases`, whose operand byte is the one at `pc + 1`. -/
theorem immediateIsZeroExtended : Obligations.ImmediateIsZeroExtended := by
  constructor
  · intro b
    have hval := zext32_toNat b
    have hle : (zext32 b).toNat ≤ 255 := hval ▸ Nat.le_of_lt_succ b.isLt
    exact ⟨hval, hle, zext32_high_bits b, zext32_low_bits b⟩
  · intro s t ht hok
    obtain ⟨_, he⟩ | ⟨b, hb, ⟨_, he⟩ | ⟨_, he⟩⟩ := exec_push1_cases s
    all_goals
      rw [he] at ht
      cases ht
    · exact absurd (State.raise_status s _) hok
    · exact absurd (State.raise_status s _) hok
    · exact ⟨b, hb, rfl, setStack_cons_slot_sp s _⟩

end Sys2Proof.Machine

/-! ### The stack primitives and `DecodeNext` (spec/40_engine.md R61, R63, R64) -/

namespace Sys2Proof.Machine

/-- `DecodeNext` reads `pc` and the code byte there, and nothing else (R61). -/
theorem decodeNext_congr {s t : State} (hpc : t.pc = s.pc) (hbyte : t.codeByte? s.pc.toNat = s.codeByte? s.pc.toNat) :
    decodeNext t = decodeNext s := by
  rw [decodeNext, decodeNext, hpc, hbyte]

/-- Settles O13: the decoded instruction is the one whose opcode byte stands at `pc`, and decode fails where R100's condition of
`InvalidOpcode` holds, past the end or on another byte. -/
theorem decodeNextReadsTheByteAtPc : Obligations.DecodeNextReadsTheByteAtPc := by
  intro s
  have fails : s.faultCondition .invalidOpcode → decodeNext s = .error .invalidOpcode := (decodeNext_fails_iff s).2
  have decodes : ∀ i, s.codeByte? s.pc.toNat = some (opcodeOf i) → decodeNext s = .ok i := fun i => (decodeNext_ok_iff s i).2
  exact ⟨fun hend => fails (.inl hend), decodes .halt, decodes .add, decodes .mul, decodes .push1,
    fun op hop h0 h1 h2 h3 => fails (.inr ⟨op, hop, h0, h1, h2, h3⟩), fun _ => decodeNext_congr⟩

/-- A word put on top leaves every slot below it (R13). -/
theorem setStack_cons_slot_lt {s : State} (v : Word) {i : Nat} (h : i < s.sp) :
    (s.setStack (v :: s.stack)).slot? i = s.slot? i := by
  have hlen : i < s.stack.reverse.length := by rwa [List.length_reverse]
  rw [State.slot?, State.setStack_stack, List.reverse_cons, List.getElem?_append_left hlen, State.slot?]

/-- Settles O15: the register file is full exactly in the first clause's case; with room the word goes on top. -/
theorem pushWritesTheSlotAtSp : Obligations.PushWritesTheSlotAtSp := by
  intro v s
  constructor
  · intro slots hdepth hsp
    exact push_of_full ((stackFull_iff _ _).2 ⟨slots, hdepth, hsp⟩)
  · intro hroom
    have room : stackFull s.config.stackDepth s.sp = false := by
      rw [← Bool.not_eq_true, stackFull_iff]
      rintro ⟨slots, hdepth, hsp⟩
      exact hroom slots hdepth hsp
    exact ⟨_, push_of_room room, setStack_cons_slot_sp s v, rfl, fun _ => setStack_cons_slot_lt v, rfl⟩

/-- Settles O16: a stack that is not empty is the popped state's with the popped word on top, so the slots are those of a push. -/
theorem popReturnsTheTopSlot : Obligations.PopReturnsTheTopSlot := by
  intro s
  constructor
  · intro hsp
    exact pop_nil (List.length_eq_zero_iff.1 hsp)
  · intro hsp
    obtain ⟨v, rest, hstack⟩ := List.exists_cons_of_length_pos (Nat.pos_of_ne_zero hsp)
    have hs : s = (s.setStack rest).setStack (v :: (s.setStack rest).stack) := by rw [State.setStack_stack, ← hstack]; rfl
    have hlen : s.sp - 1 = (s.setStack rest).sp := by rw [State.sp, hstack, List.length_cons]; rfl
    refine ⟨v, s.setStack rest, pop_cons hstack, ?_, hlen.symm, fun i hi => ?_, rfl⟩
    · rw [hlen, hs]
      exact setStack_cons_slot_sp (s.setStack rest) v
    · rw [hs]
      exact (setStack_cons_slot_lt v hi).symm

end Sys2Proof.Machine

/-! ### One program, one run: what the next state depends on (spec/40_engine.md R66, R71) -/

namespace Sys2Proof.Machine

/-! #### States of the same run -/

namespace State.SameRun

variable {s t : State}

theorem pc (h : s.SameRun t) : s.pc = t.pc := congrArg Arch.pc h.arch
theorem stack (h : s.SameRun t) : s.stack = t.stack := congrArg Arch.stack h.arch
theorem status (h : s.SameRun t) : s.status = t.status := congrArg Arch.status h.arch
theorem sp (h : s.SameRun t) : s.sp = t.sp := congrArg List.length h.stack

theorem codeByte? (h : s.SameRun t) (a : Nat) : s.codeByte? a = t.codeByte? a := by
  rw [State.codeByte?, State.codeByte?, h.code]

theorem operandByte? (h : s.SameRun t) : s.operandByte? = t.operandByte? := by
  rw [State.operandByte?, State.operandByte?, State.operandAddr, State.operandAddr, h.pc, h.codeByte?]

theorem decodeNext (h : s.SameRun t) : decodeNext t = decodeNext s := decodeNext_congr h.pc.symm (h.codeByte? _).symm

theorem configWf (h : s.SameRun t) (hw : s.config.wf = true) : t.config.wf = true := by
  rw [Configuration.wf, h.code, h.stackDepth] at hw
  exact hw

theorem setStack (h : s.SameRun t) (l : List Word) : (s.setStack l).SameRun (t.setStack l) :=
  ⟨congrArg (fun a : Arch => { a with stack := l }) h.arch, h.code, h.stackDepth⟩

theorem advancePc (h : s.SameRun t) (n : Nat) : (s.advancePc n).SameRun (t.advancePc n) :=
  ⟨congrArg (fun a : Arch => { a with pc := a.pc + BitVec.ofNat 32 n }) h.arch, h.code, h.stackDepth⟩

theorem halt (h : s.SameRun t) : s.halt.SameRun t.halt :=
  ⟨congrArg (fun a : Arch => { a with status := .halted }) h.arch, h.code, h.stackDepth⟩

theorem raise (h : s.SameRun t) (c : Cause) : (s.raise c).SameRun (t.raise c) :=
  ⟨congrArg (fun a : Arch => { a with status := .faulted, cause := c }) h.arch, h.code, h.stackDepth⟩

/-- The continue signals and the trace are no part of the run. -/
theorem ports (h : s.SameRun t) (n m : Nat) (tr tr' : List TraceEvent) :
    State.SameRun { s with continues := n, trace := tr } { t with continues := m, trace := tr' } :=
  ⟨h.arch, h.code, h.stackDepth⟩

theorem signalHold (h : s.SameRun t) : (signalHold s).SameRun t := by
  obtain ⟨n, hn⟩ := signalHold_frame s
  rw [hn]
  exact ⟨h.arch, h.code, h.stackDepth⟩

end State.SameRun

/-! #### Execute -/

/-- Two results of a primitive agree: the same cause is raised, or both give a value and the values are related. -/
inductive SameResult {α : Type} (R : α → α → Prop) : Except Cause α → Except Cause α → Prop
  | error (c : Cause) : SameResult R (.error c) (.error c)
  | ok {a b : α} (h : R a b) : SameResult R (.ok a) (.ok b)

theorem SameResult.bind {α β : Type} {R : α → α → Prop} {Q : β → β → Prop} {x y : Except Cause α} {f g : α → Except Cause β}
    (h : SameResult R x y) (hfg : ∀ a b, R a b → SameResult Q (f a) (g b)) : SameResult Q (x.bind f) (y.bind g) := by
  cases h with
  | error c => exact .error c
  | ok hab => exact hfg _ _ hab

theorem SameResult.advancePc {x y : Except Cause State} (h : SameResult State.SameRun x y) (n : Nat) :
    SameResult State.SameRun (x.map (·.advancePc n)) (y.map (·.advancePc n)) := by
  cases h with
  | error c => exact .error c
  | ok hst => exact .ok (hst.advancePc n)

theorem push_sameRun {s t : State} (h : s.SameRun t) (v : Word) : SameResult State.SameRun (push v s) (push v t) := by
  rw [push, push, h.stackDepth, h.sp, h.stack]
  split
  · exact .error _
  · exact .ok (h.setStack _)

theorem pop_sameRun {s t : State} (h : s.SameRun t) :
    SameResult (fun p q => p.1 = q.1 ∧ p.2.SameRun q.2) (pop s) (pop t) := by
  cases hstack : t.stack with
  | nil => rw [pop_nil hstack, pop_nil (h.stack.trans hstack)]; exact .error _
  | cons v rest => rw [pop_cons hstack, pop_cons (h.stack.trans hstack)]; exact .ok ⟨rfl, h.setStack rest⟩

theorem binaryOp_sameRun {s t : State} (h : s.SameRun t) (f : Word → Word → Word) :
    SameResult State.SameRun (binaryOp f s) (binaryOp f t) := by
  rw [binaryOp, binaryOp, h.sp]
  split
  · exact .error _
  · refine (pop_sameRun h).bind ?_
    rintro ⟨right, s₁⟩ ⟨_, t₁⟩ ⟨rfl, h₁⟩
    refine (pop_sameRun h₁).bind ?_
    rintro ⟨left, s₂⟩ ⟨_, t₂⟩ ⟨rfl, h₂⟩
    exact push_sameRun h₂ _

theorem atomically_sameRun {s t : State} {x y : Except Cause State} (h : s.SameRun t) (hxy : SameResult State.SameRun x y) :
    ∃ u v, atomically s x = .next u ∧ atomically t y = .next v ∧ u.SameRun v := by
  cases hxy with
  | error c => exact ⟨_, _, rfl, rfl, h.raise c⟩
  | ok huv => exact ⟨_, _, rfl, rfl, huv⟩

/-- R71 for one executed instruction: it reads the architectural state, the code and the depth of the register file, nothing else. -/
theorem exec_sameRun {s t : State} (h : s.SameRun t) (i : Instr) :
    ∃ u v, exec i s = .next u ∧ exec i t = .next v ∧ u.SameRun v := by
  cases i with
  | halt => exact ⟨_, _, rfl, rfl, h.halt⟩
  | add => exact atomically_sameRun h ((binaryOp_sameRun h aluAdd).advancePc 1)
  | mul => exact atomically_sameRun h ((binaryOp_sameRun h aluMul).advancePc 1)
  | push1 =>
    rw [exec, exec, execPush1, execPush1, h.operandByte?]
    cases t.operandByte? with
    | none => exact atomically_sameRun h (.error _)
    | some imm8 => exact atomically_sameRun h ((push_sameRun h (zext32 imm8)).advancePc 2)

/-! #### The step -/

theorem step_of_ended {s : State} (hw : s.config.wf = true) (hr : s.status ≠ .running) : step s = .next s := by
  obtain ⟨hlen, hdepth⟩ := config_checks hw
  simp [step, stepWith, hlen, hdepth, hr]

/-- A decode failure is raised at once, with no hold (R66, R101). -/
theorem step_of_decode_fails {s : State} (hw : s.config.wf = true) (hr : s.status = .running)
    (hd : decodeNext s = .error .invalidOpcode) : step s = .next (s.raise .invalidOpcode) := by
  obtain ⟨hlen, hdepth⟩ := config_checks hw
  simp [step, stepWith, hlen, hdepth, hr, hd]

theorem executes_of_not_held {s : State} {i : Instr} (hw : s.config.wf = true) (hr : s.status = .running)
    (hd : decodeNext s = .ok i) (hh : isHeld s = false) : s.Executes i where
  configWf := hw
  running := hr
  decodes := hd
  released := by simpa [isHeld, hr, hd, Except.toBool] using hh

/-- Decoding fails in its one way, or gives an instruction. -/
theorem decodeNext_cases (s : State) : decodeNext s = .error .invalidOpcode ∨ ∃ i, decodeNext s = .ok i := by
  cases hd : decodeNext s with
  | error c => exact .inl (by rw [decodeNext_error hd])
  | ok i => exact .inr ⟨i, rfl⟩

/-- R71 for one step that is not held: the hold and the trace around the execute are no part of the run. -/
theorem step_sameRun {s t : State} (hw : s.config.wf = true) (h : s.SameRun t) (hs : isHeld s = false) (ht : isHeld t = false) :
    ∃ s' t', step s = .next s' ∧ step t = .next t' ∧ s'.SameRun t' := by
  have hwt := h.configWf hw
  by_cases hr : s.status = .running
  · have hrt : t.status = .running := h.status ▸ hr
    obtain hd | ⟨i, hd⟩ := decodeNext_cases s
    · have hdt := h.decodeNext.trans hd
      exact ⟨_, _, step_of_decode_fails hw hr hd, step_of_decode_fails hwt hrt hdt, h.raise _⟩
    · have hdt := h.decodeNext.trans hd
      obtain ⟨u, n, tr, hu, hstep⟩ := step_of_executes_ports (executes_of_not_held hw hr hd hs)
      obtain ⟨v, m, tr', hv, hstep'⟩ := step_of_executes_ports (executes_of_not_held hwt hrt hdt ht)
      obtain ⟨u', v', hu', hv', huv⟩ := exec_sameRun h i
      obtain rfl : u = u' := Host.Outcome.next.inj (hu.symm.trans hu')
      obtain rfl : v = v' := Host.Outcome.next.inj (hv.symm.trans hv')
      exact ⟨_, _, hstep, hstep', huv.ports n m tr tr'⟩
  · exact ⟨s, t, step_of_ended hw hr, step_of_ended hwt (h.status ▸ hr), h⟩

/-! #### The signals in hand -/

/-- `n` steps from `s` are not held for want of a signal: it does not single-step, or has `n` signals in hand (R66,
notes/assumptions/6.md). -/
def State.ReleasedFor (n : Nat) (s : State) : Prop := s.config.singleStepEnabled = false ∨ n ≤ s.continues

theorem State.ReleasedFor.not_held {n : Nat} {s : State} (h : s.ReleasedFor (n + 1)) : isHeld s = false := by
  have hreleased : awaitsContinue s = false := by
    obtain hoff | hle := h
    · simp [awaitsContinue, hoff]
    · have hne : s.continues ≠ 0 := by omega
      simp [awaitsContinue, hne]
  simp [isHeld, hreleased]

theorem traceBefore_continues (s : State) : (traceBefore s).continues = s.continues := by
  obtain ⟨tr, h⟩ := traceBefore_frame s
  rw [h]

theorem traceAfter_continues (s : State) : (traceAfter s).continues = s.continues := by
  obtain ⟨tr, h⟩ := traceAfter_frame s
  rw [h]

theorem exec_keeps_continues {i : Instr} {s u : State} (hu : exec i s = .next u) : u.continues = s.continues := by
  obtain ⟨c, _, he⟩ | ⟨_, he⟩ | ⟨l, n, _, he⟩ := exec_cases i s
  all_goals
    rw [he] at hu
    cases hu
    rfl

/-- A step that executes uses up the signal that released it, and no other (R66). -/
theorem State.Executes.step_continues {s t : State} {i : Instr} (hx : s.Executes i) (ht : step s = .next t) :
    t.continues = (releaseHold s).continues := by
  rw [step_of_executes hx, executeDecoded] at ht
  cases hu : exec i (traceBefore (releaseHold s)) with
  | next u =>
    rw [hu] at ht
    cases ht
    rw [traceAfter_continues, exec_keeps_continues hu, traceBefore_continues]
  | fault r => cases r
  | refused r => rw [hu] at ht; cases ht

/-- A step uses up at most one signal (R66). -/
theorem step_continues_le {s t : State} (ht : step s = .next t) : s.continues ≤ t.continues + 1 := by
  obtain ⟨rfl, _⟩ | ⟨rfl, _⟩ | ⟨i, _, _, _, hx, _⟩ := step_next_cases ht
  · exact Nat.le_succ _
  · exact Nat.le_succ _
  · rw [hx.step_continues ht, releaseHold]
    split
    · rw [State.takeContinue_continues]; omega
    · exact Nat.le_succ _

theorem State.ReleasedFor.step {n : Nat} {s t : State} (h : s.ReleasedFor (n + 1)) (ht : step s = .next t) : t.ReleasedFor n := by
  obtain ⟨hcfg, _⟩ := step_keeps_config_and_memory ht
  obtain hoff | hle := h
  · exact .inl (hcfg ▸ hoff)
  · have := step_continues_le ht
    exact .inr (by omega)

/-- The host's signal at each hold lifts it. -/
theorem signalHold_not_held (s : State) : isHeld (signalHold s) = false := by
  cases hh : isHeld s with
  | false => rwa [signalHold, hh]
  | true =>
    obtain ⟨_, hss⟩ : _ ∧ s.config.singleStepEnabled = true := by
      simp only [isHeld, awaitsContinue, Bool.and_eq_true] at hh
      exact ⟨hh.1, hh.2.1⟩
    have hsig : signalHold s = s.addContinue := by simp [signalHold, hh, hostContinue, hss]
    simp [hsig, isHeld, awaitsContinue]

theorem signalHold_config (s : State) : (signalHold s).config = s.config := by
  obtain ⟨n, h⟩ := signalHold_frame s
  rw [h]

theorem isHeld_of_off {s : State} (h : s.config.singleStepEnabled = false) : isHeld s = false := by
  simp [isHeld, awaitsContinue, h]

/-! #### The run -/

/-- The induction over two runs, each over a step function of its own: where `R n s t` lets both sides take `n` more steps and every
pair of steps keeps it, with one fewer to go, the runs reach states of the same run. -/
theorem runWith_sameRun {f g : State → Host.Outcome State Fault Refusal} {R : Nat → State → State → Prop}
    (same : ∀ n s t, R n s t → s.SameRun t)
    (next : ∀ n s t, R (n + 1) s t → ∃ s' t', f s = .next s' ∧ g t = .next t' ∧ R n s' t') :
    ∀ (n : Nat) (s t : State), R n s t → ∃ s' t', runWith f n s = .next s' ∧ runWith g n t = .next t' ∧ s'.SameRun t' := by
  intro n
  induction n with
  | zero => exact fun s t h => ⟨s, t, rfl, rfl, same 0 s t h⟩
  | succ n ih =>
    intro s t h
    have hst := same _ s t h
    by_cases hr : s.status = .running
    · obtain ⟨s', t', hs, ht, h'⟩ := next n s t h
      have hrt : t.status = .running := hst.status ▸ hr
      simpa [runWith, hr, hrt, hs, ht] using ih s' t' h'
    · have hrt : t.status ≠ .running := hst.status ▸ hr
      exact ⟨s, t, by simp [runWith, hr], by simp [runWith, hrt], hst⟩

/-- Two states of the same run, neither of which is held for want of a signal in its next `n` steps. -/
structure ReleasedPair (n : Nat) (s t : State) : Prop where
  configWf : s.config.wf = true
  sameRun : s.SameRun t
  released : s.ReleasedFor n
  released' : t.ReleasedFor n

theorem ReleasedPair.step {n : Nat} {s t : State} (h : ReleasedPair (n + 1) s t) :
    ∃ s' t', step s = .next s' ∧ step t = .next t' ∧ ReleasedPair n s' t' := by
  obtain ⟨hw, hst, hs, ht⟩ := h
  obtain ⟨s', t', hstep, hstep', hst'⟩ := step_sameRun hw hst hs.not_held ht.not_held
  obtain ⟨hcfg, _⟩ := step_keeps_config_and_memory hstep
  exact ⟨s', t', hstep, hstep', hcfg ▸ hw, hst', hs.step hstep, ht.step hstep'⟩

/-- Settles O47: a step that is not held takes states of the same run to states of the same run, and leaves signals for the steps to
come. -/
theorem flagsDoNotChangeTheRun : Obligations.FlagsDoNotChangeTheRun := by
  intro n s t hw h hs ht
  exact runWith_sameRun (R := ReleasedPair) (fun _ _ _ => ReleasedPair.sameRun) (fun _ _ _ => ReleasedPair.step) n s t ⟨hw, h, hs, ht⟩

/-- Two states of the same run, the second without single-stepping. -/
structure FreeRunningPair (s t : State) : Prop where
  configWf : s.config.wf = true
  sameRun : s.SameRun t
  off : t.config.singleStepEnabled = false

/-- The signal at a hold changes only the count of signals and lifts the hold, so both sides take a step that is not held. -/
theorem FreeRunningPair.step {s t : State} (h : FreeRunningPair s t) :
    ∃ s' t', step (signalHold s) = .next s' ∧ step t = .next t' ∧ FreeRunningPair s' t' := by
  obtain ⟨hw, hst, hoff⟩ := h
  have hw' : (signalHold s).config.wf = true := by rwa [signalHold_config]
  obtain ⟨s', t', hstep, hstep', hst'⟩ := step_sameRun hw' hst.signalHold (signalHold_not_held s) (isHeld_of_off hoff)
  obtain ⟨hcfg, _⟩ := step_keeps_config_and_memory hstep
  obtain ⟨hcfg', _⟩ := step_keeps_config_and_memory hstep'
  exact ⟨s', t', hstep, hstep', hcfg ▸ hw', hst', hcfg' ▸ hoff⟩

/-- Settles O50: with a signal at each hold as it arises, neither side ever takes a held step. -/
theorem oneSignalPerHoldGivesTheSameRun : Obligations.OneSignalPerHoldGivesTheSameRun := by
  intro n s t hw h hoff
  exact runWith_sameRun (R := fun _ => FreeRunningPair) (fun _ _ _ => FreeRunningPair.sameRun) (fun _ _ _ => FreeRunningPair.step)
    n s t ⟨hw, h, hoff⟩

end Sys2Proof.Machine

/-! ### Every run ends (spec/40_engine.md R70) -/

namespace Sys2Proof.Machine

theorem depthAdmits_iff (depth : StackDepth) (sp : Nat) : depthAdmits depth sp ↔ ∀ slots, depth = .finite slots → sp ≤ slots := by
  cases depth <;> simp [depthAdmits]

/-- No execute takes the stack out of its register file (R13): `ADD` and `MUL` shrink it, and `PUSH1` pushes only with room. -/
theorem exec_keeps_stackFits {s u : State} {i : Instr} (fits : depthAdmits s.config.stackDepth s.sp) (hd : decodeNext s = .ok i)
    (hu : exec i s = .next u) : depthAdmits u.config.stackDepth u.sp := by
  obtain ⟨_, rfl⟩ | ⟨c, _, _, rfl⟩ | ⟨_, _, rest, v, _, hstack, rfl⟩ | ⟨v, _, hroom, _, rfl⟩ := exec_next_cases fits hd hu
  case inl => exact fits
  case inr.inl => exact fits
  case inr.inr.inl =>
    refine (depthAdmits_iff _ _).2 fun slots hdepth => ?_
    have hsp : s.sp = rest.length + 1 + 1 := by rw [State.sp, hstack]; rfl
    have hle := (depthAdmits_iff _ _).1 fits slots hdepth
    simp only [State.advancePc_sp, State.setStack_sp, List.length_cons]
    omega
  case inr.inr.inr =>
    refine (depthAdmits_iff _ _).2 fun slots hdepth => ?_
    have hne : s.sp ≠ slots := by rintro rfl; exact hroom hdepth
    exact Nat.lt_of_le_of_ne ((depthAdmits_iff _ _).1 fits slots hdepth) hne

/-- `n` steps are enough to end the run from `s`: each step of a machine that goes on takes at least one of the code bytes left, and
the step past the end faults (the proof of R70). -/
structure State.EndsIn (n : Nat) (s : State) : Prop where
  configWf : s.config.wf = true
  stackFits : depthAdmits s.config.stackDepth s.sp
  bytesLeft : s.codeLen - s.pc.toNat < n

theorem State.Valid.endsIn {s : State} (h : s.Valid) : s.EndsIn (s.codeLen - s.pc.toNat + 1) :=
  ⟨h.configWf, h.stackFits, Nat.lt_succ_self _⟩

theorem construct_endsIn {cfg : Configuration} (hw : cfg.wf = true) : (construct cfg).EndsIn (cfg.code.length + 1) where
  configWf := hw
  stackFits := (depthAdmits_iff _ _).2 fun slots _ => Nat.zero_le slots
  bytesLeft := Nat.lt_succ_of_le (Nat.sub_le _ _)

theorem State.EndsIn.signalHold {n : Nat} {s : State} (h : s.EndsIn n) : (signalHold s).EndsIn n := by
  obtain ⟨k, hk⟩ := signalHold_frame s
  rw [hk]
  exact ⟨h.configWf, h.stackFits, h.bytesLeft⟩

theorem ended_iff_not_running (s : State) : s.ended ↔ s.status ≠ .running := by
  rw [State.ended]
  cases s.status <;> simp

/-- The step of R70's proof: it ends the run, or leaves fewer bytes. -/
theorem State.EndsIn.step {n : Nat} {s : State} (h : s.EndsIn (n + 1)) (hr : s.status = .running) (hh : isHeld s = false) :
    ∃ t, step s = .next t ∧ (t.ended ∨ t.EndsIn n) := by
  obtain hd | ⟨i, hd⟩ := decodeNext_cases s
  · exact ⟨_, step_of_decode_fails h.configWf hr hd, .inl (.inr rfl)⟩
  · have hx := executes_of_not_held h.configWf hr hd hh
    obtain ⟨u, k, tr, hu, hstep⟩ := step_of_executes_ports hx
    refine ⟨_, hstep, ?_⟩
    by_cases hru : u.status = .running
    · have hcfg : u.config = s.config := (exec_keeps_config_and_memory hu).1
      have hpc := exec_pc_toNat h.stackFits hx hu
      have hlen : u.codeLen = s.codeLen := congrArg (·.code.length) hcfg
      have hlt := hx.pc_lt_codeLen
      have hleft := h.bytesLeft
      have hadv : s.pc.toNat < u.pc.toNat := by rw [hpc, if_pos hru]; split <;> omega
      have hleft' : u.codeLen - u.pc.toNat < n := by omega
      have hfits := exec_keeps_stackFits h.stackFits hd hu
      exact .inr ⟨hcfg ▸ h.configWf, hfits, hleft'⟩
    · exact .inl ((ended_iff_not_running u).2 hru)

/-- The induction of R70, over any step function: where every step of a running machine ends it or keeps `P` with one step fewer to go,
and `P` never has none to go, the run ends. -/
theorem runWith_ends {f : State → Host.Outcome State Fault Refusal} {P : Nat → State → Prop} (positive : ∀ s, ¬ P 0 s)
    (next : ∀ n s, P (n + 1) s → s.status = .running → ∃ t, f s = .next t ∧ (t.ended ∨ P n t)) :
    ∀ (n : Nat) (s : State), s.ended ∨ P n s → ∃ t, runWith f n s = .next t ∧ t.ended := by
  intro n
  induction n with
  | zero =>
    rintro s (hend | hP)
    · exact ⟨s, rfl, hend⟩
    · exact absurd hP (positive s)
  | succ n ih =>
    intro s h
    by_cases hr : s.status = .running
    · have hP := h.resolve_left fun hend => (ended_iff_not_running s).1 hend hr
      obtain ⟨t, ht, h'⟩ := next n s hP hr
      simpa [runWith, hr, ht] using ih t h'
    · exact ⟨s, by simp [runWith, hr], (ended_iff_not_running s).2 hr⟩

theorem run_ends {n : Nat} {s : State} (h : s.EndsIn n) (hs : s.ReleasedFor n) : ∃ t, run n s = .next t ∧ t.ended := by
  refine runWith_ends (P := fun n s => s.EndsIn n ∧ s.ReleasedFor n) ?_ ?_ n s (.inr ⟨h, hs⟩)
  · rintro s ⟨h, _⟩
    exact Nat.not_lt_zero _ h.bytesLeft
  · rintro n s ⟨h, hs⟩ hr
    obtain ⟨t, ht, h'⟩ := h.step hr hs.not_held
    exact ⟨t, ht, h'.imp_right fun hn => ⟨hn, hs.step ht⟩⟩

theorem attendedRun_ends {n : Nat} {s : State} (h : s.EndsIn n) : ∃ t, attendedRun n s = .next t ∧ t.ended := by
  refine runWith_ends (P := State.EndsIn) (fun s hP => Nat.not_lt_zero _ hP.bytesLeft) ?_ n s (.inr h)
  intro n s h hr
  have hr' : (signalHold s).status = .running := by
    obtain ⟨k, hk⟩ := signalHold_frame s
    rwa [hk]
  exact h.signalHold.step hr' (signalHold_not_held s)

/-- Settles O46: both kinds of run end in as many steps as `EndsIn` counts, at reset and in every valid state. -/
theorem everyRunEnds : Obligations.EveryRunEnds :=
  ⟨fun _ hw hoff => run_ends (construct_endsIn hw) (.inl hoff), fun _ hv hs => run_ends hv.endsIn hs,
    fun _ hv => attendedRun_ends hv.endsIn⟩

end Sys2Proof.Machine

/-! ### The ALU's arithmetic (spec/42_arithmetic.md R84, R85) -/

namespace Sys2Proof.Machine

theorem aluAdd_comm (a b : Word) : aluAdd a b = aluAdd b a := by
  rw [aluAdd_eq, aluAdd_eq, BitVec.add_comm]

theorem aluMul_comm (a b : Word) : aluMul a b = aluMul b a := by
  rw [aluMul_eq, aluMul_eq, BitVec.mul_comm]

/-- The exact sum is below 2^33, so one subtraction of 2^32 reduces it. -/
theorem aluAdd_toNat (a b : Word) :
    (aluAdd a b).toNat = if a.toNat + b.toNat < 2 ^ 32 then a.toNat + b.toNat else a.toNat + b.toNat - 2 ^ 32 := by
  have ha := a.isLt
  have hb := b.isLt
  have hmod : (aluAdd a b).toNat = (a.toNat + b.toNat) % 2 ^ 32 := by rw [aluAdd_eq, BitVec.toNat_add]
  rw [hmod]
  split <;> omega

/-- The exact product of two words is at most (2^32 - 1)^2. -/
theorem toNat_mul_toNat_le (a b : Word) : a.toNat * b.toNat ≤ 2 ^ 64 - 2 ^ 33 + 1 :=
  calc a.toNat * b.toNat
    _ ≤ (2 ^ 32 - 1) * (2 ^ 32 - 1) := Nat.mul_le_mul (Nat.le_sub_one_of_lt a.isLt) (Nat.le_sub_one_of_lt b.isLt)
    _ = 2 ^ 64 - 2 ^ 33 + 1 := by norm_num

/-- 64 bits hold the exact product, and its low 32 are the product of the words. -/
theorem aluMul_eq_low_bits (a b : Word) :
    aluMul a b = BitVec.extractLsb' 0 32 (BitVec.setWidth 64 a * BitVec.setWidth 64 b) := by
  have hle : 32 ≤ 64 := by decide
  rw [aluMul_eq, ← BitVec.setWidth_eq_extractLsb' hle, BitVec.setWidth_mul _ _ hle,
    BitVec.setWidth_setWidth_of_le _ hle, BitVec.setWidth_setWidth_of_le _ hle, BitVec.setWidth_eq, BitVec.setWidth_eq]

/-- Settles O17: the model's operations are the bit-vector ones, and the range facts follow from both operands being below 2^32. -/
theorem aluComputesModuloWordSize : Obligations.AluComputesModuloWordSize := by
  intro a b
  have ha := a.isLt
  have hb := b.isLt
  have hsum : a.toNat + b.toNat ≤ 2 ^ 33 - 2 := by omega
  exact ⟨aluAdd_eq a b, hsum, aluAdd_toNat a b, aluMul_eq a b, toNat_mul_toNat_le a b, aluMul_eq_low_bits a b⟩

/-- Settles O18: the laws of the ring of 32-bit vectors, of which the ALU's operations are the sum and the product. -/
theorem aluObeysRingLaws : Obligations.AluObeysRingLaws := by
  intro a b c
  simp only [aluAdd_eq, aluMul_eq]
  exact ⟨BitVec.add_comm a b, BitVec.add_assoc a b c, BitVec.add_zero a, BitVec.mul_comm a b, BitVec.mul_assoc a b c,
    BitVec.mul_one a, BitVec.mul_add⟩

end Sys2Proof.Machine

/-! ### `ADD` and `MUL` (spec/42_arithmetic.md R80, R81, R82) -/

namespace Sys2Proof.Machine

/-- What `ADD` and `MUL` share with too few entries: a fault and nothing else (R82). -/
theorem atomically_binaryOp_of_short {f : Word → Word → Word} {s : State} (h : s.sp < 2) :
    atomically s ((binaryOp f s).map (·.advancePc 1)) = .next (s.raise .stackUnderflow) := by
  rw [binaryOp_of_short h]; rfl

/-- What they share with two entries: the top one is the right-hand operand (R83). -/
theorem atomically_binaryOp_of_two {f : Word → Word → Word} {s : State} {right left : Word} {rest : List Word}
    (h : s.stack = right :: left :: rest) (room : stackFull s.config.stackDepth rest.length = false) :
    atomically s ((binaryOp f s).map (·.advancePc 1)) = .next ((s.setStack (f left right :: rest)).advancePc 1) := by
  rw [binaryOp_of_two h room]; rfl

/-- R82 for both instructions. -/
theorem exec_add_mul_of_short {i : Instr} {s : State} (hi : i = .add ∨ i = .mul) (h : s.sp < 2) :
    exec i s = .next (s.raise .stackUnderflow) := by
  obtain rfl | rfl := hi
  · exact atomically_binaryOp_of_short h
  · exact atomically_binaryOp_of_short h

/-- Settles O21: the two cases of the operation on the top entries; the sum does not depend on which operand is the top. -/
theorem addReplacesTopTwoBySum : Obligations.AddReplacesTopTwoBySum := by
  intro s
  refine ⟨exec_add_mul_of_short (.inl rfl), fun a b rest hstack fits => ?_⟩
  have hexec : exec .add s = .next ((s.setStack (aluAdd b a :: rest)).advancePc 1) :=
    atomically_binaryOp_of_two hstack (room_after_two_pops hstack fits)
  rw [hexec, aluAdd_comm]
  rfl

/-- Settles O22, as O21: the product does not depend on which operand is the top. -/
theorem mulReplacesTopTwoByLowProduct : Obligations.MulReplacesTopTwoByLowProduct := by
  intro s
  refine ⟨exec_add_mul_of_short (.inr rfl), fun a b rest hstack fits => ?_⟩
  have hexec : exec .mul s = .next ((s.setStack (aluMul b a :: rest)).advancePc 1) :=
    atomically_binaryOp_of_two hstack (room_after_two_pops hstack fits)
  rw [hexec, aluMul_comm]
  rfl

/-- Settles O30: the execute only raises the fault, and the step around it writes nothing but the signals and the trace. -/
theorem underflowIsPrecise : Obligations.UnderflowIsPrecise := by
  intro i s hi hx hsp
  obtain ⟨u, n, tr, hu, hstep⟩ := step_of_executes_ports hx
  rw [exec_add_mul_of_short hi hsp] at hu
  cases hu
  exact ⟨_, hstep, rfl, rfl, rfl, rfl, fun _ => rfl⟩

end Sys2Proof.Machine

/-! ### Code that spells an arithmetic expression (spec/42_arithmetic.md R85) -/

namespace Sys2Proof.Machine

/-- A run of `m` steps and then `n` more is one of `m + n` steps. -/
theorem run_add {m n : Nat} {s t u : State} (hm : run m s = .next t) (hn : run n t = .next u) : run (m + n) s = .next u := by
  induction m generalizing s with
  | zero =>
    cases hm
    rwa [Nat.zero_add]
  | succ m ih =>
    by_cases hr : s.status = .running
    · cases hs : step s with
      | next s' =>
        rw [run_succ_of_step hr hs] at hm
        rw [Nat.add_right_comm, run_succ_of_step hr hs]
        exact ih hm
      | fault r => cases r
      | refused r => simp [run, runWith, hr, hs] at hm
    · rw [run_of_ended hr] at hm
      cases hm
      rwa [run_of_ended hr] at hn ⊢

/-! #### Room on the stack -/

/-- A register file that admits more than `n` entries is not full with `n`. -/
theorem not_stackFull_of_depthAdmits {depth : StackDepth} {m n : Nat} (h : depthAdmits depth m) (hlt : n < m) :
    stackFull depth n = false := by
  rw [← Bool.not_eq_true, stackFull_iff]
  rintro ⟨slots, hdepth, rfl⟩
  exact absurd ((depthAdmits_iff _ _).1 h n hdepth) (Nat.not_le_of_lt hlt)

theorem depthAdmits_of_le {depth : StackDepth} {m n : Nat} (h : depthAdmits depth m) (hle : n ≤ m) : depthAdmits depth n :=
  (depthAdmits_iff _ _).2 fun slots hdepth => hle.trans ((depthAdmits_iff _ _).1 h slots hdepth)

/-! #### The running machine at an address -/

/-- The machine runs the configuration `cfg`, is at `addr` and holds `stack`. `pc` is given as the address's word, so that going on by a
number of bytes adds to the address. -/
structure State.At (cfg : Configuration) (cause : Cause) (addr : Nat) (stack : List Word) (s : State) : Prop where
  config : s.config = cfg
  arch : s.arch = { pc := BitVec.ofNat 32 addr, stack := stack, status := .running, cause := cause }

section
variable {cfg : Configuration} {cause : Cause}

namespace State.At
variable {s : State} {addr : Nat} {stack : List Word}

theorem pc (h : s.At cfg cause addr stack) : s.pc = BitVec.ofNat 32 addr := congrArg Arch.pc h.arch
theorem stack_eq (h : s.At cfg cause addr stack) : s.stack = stack := congrArg Arch.stack h.arch
theorem running (h : s.At cfg cause addr stack) : s.status = .running := congrArg Arch.status h.arch

/-- An instruction that completes with a new stack leaves the machine at the address of the next one. -/
theorem advance (h : s.At cfg cause addr stack) (l : List Word) (n : Nat) :
    ((s.setStack l).advancePc n).At cfg cause (addr + n) l where
  config := h.config
  arch := by
    have hcause : s.cause = cause := congrArg Arch.cause h.arch
    simp [State.arch, h.pc, h.running, hcause, BitVec.ofNat_add]

/-- The code bytes from `addr` on, as the machine there reads them; none lies past 2^32, so `pc` holds the whole address (R12). -/
theorem codeByte? {pre bytes post : List Byte} (h : s.At cfg cause pre.length stack) (hw : cfg.wf = true)
    (hcode : cfg.code = pre ++ bytes ++ post) {k : Nat} {b : Byte} (hb : bytes[k]? = some b) :
    s.codeByte? (s.pc.toNat + k) = some b := by
  have hk : k < bytes.length := (List.getElem?_eq_some_iff.1 hb).1
  have hlen : s.codeLen < 2 ^ 32 := codeLen_lt_of_wf (h.config ▸ hw)
  have hpc : s.pc.toNat = pre.length := by
    simp only [State.codeLen, h.config, hcode, List.length_append] at hlen
    rw [h.pc, BitVec.toNat_ofNat, Nat.mod_eq_of_lt (by omega)]
  rw [State.codeByte?, h.config, hcode, hpc, List.append_assoc, List.getElem?_append_right (Nat.le_add_right _ _),
    Nat.add_sub_cancel_left, List.getElem?_append_left hk, hb]

end State.At

/-! #### One line, and a listing that pushes a word -/

/-- Wherever the code of `lines` stands in the configuration and whatever the stack holds, running it pushes `v`, given `slots` free
slots. -/
def Pushes (cfg : Configuration) (cause : Cause) (lines : List AsmInstr) (slots : Nat) (v : Word) : Prop :=
  ∀ (pre post : List Byte) (stack : List Word) (s : State), cfg.code = pre ++ assemble lines ++ post →
    s.At cfg cause pre.length stack → depthAdmits cfg.stackDepth (stack.length + slots) →
    ∃ t, run lines.length s = .next t ∧ t.At cfg cause (pre ++ assemble lines).length (v :: stack)

theorem assemble_singleton (line : AsmInstr) : assemble [line] = encode line := List.append_nil _

theorem assemble_append (l r : List AsmInstr) : assemble (l ++ r) = assemble l ++ assemble r := List.flatMap_append

/-- A `PUSH1` with its operand byte and room completes (R90). -/
theorem exec_push1_of_room {s : State} {b : Byte} (hb : s.operandByte? = some b)
    (room : stackFull s.config.stackDepth s.sp = false) :
    exec .push1 s = .next ((s.setStack (zext32 b :: s.stack)).advancePc 2) := by
  simp [exec, execPush1, hb, push_of_room room, Except.map, atomically]

section
variable (hw : cfg.wf = true) (hoff : cfg.singleStepEnabled = false)
include hw hoff

/-- One line of a listing, run where its bytes stand: if its execute completes with the stack `l`, so does the step, whatever the trace. -/
theorem run_line {line : AsmInstr} {pre post : List Byte} {stack l : List Word} {s : State}
    (hs : s.At cfg cause pre.length stack) (hcode : cfg.code = pre ++ encode line ++ post)
    (hexec : exec line.instr s = .next ((s.setStack l).advancePc (encode line).length)) :
    ∃ t, run 1 s = .next t ∧ t.At cfg cause (pre ++ encode line).length l := by
  have hop : (encode line)[0]? = some (opcodeOf line.instr) := by cases line <;> rfl
  have hd : decodeNext s = .ok line.instr := (decodeNext_ok_iff s _).2 (hs.codeByte? hw hcode hop)
  have hx : s.Executes line.instr :=
    executes_of_not_held (hs.config ▸ hw) hs.running hd (isHeld_of_off (hs.config ▸ hoff))
  obtain ⟨u, n, tr, hu, hstep⟩ := step_of_executes_ports hx
  rw [hexec] at hu
  cases hu
  obtain ⟨hconfig, harch⟩ := hs.advance l (encode line).length
  rw [List.length_append]
  exact ⟨_, run_succ_of_step hs.running hstep, hconfig, harch⟩

/-- A `PUSH1` with room pushes its operand byte. -/
theorem pushes_push1 (b : Byte) : Pushes cfg cause [.push1 b] 1 (zext32 b) := by
  intro pre post stack s hcode hs hdepth
  rw [assemble_singleton] at hcode ⊢
  have hoperand : s.operandByte? = some b := hs.codeByte? hw hcode (k := 1) rfl
  have room : stackFull s.config.stackDepth s.sp = false := by
    rw [hs.config, State.sp, hs.stack_eq]
    exact not_stackFull_of_depthAdmits hdepth (Nat.lt_succ_self _)
  have hexec := exec_push1_of_room hoperand room
  rw [hs.stack_eq] at hexec
  exact run_line hw hoff hs hcode hexec

/-- An operation after the code of its two operands: the left one is computed on the stack found, the right one on top of its value, and
the operation replaces both by its result. -/
theorem Pushes.operation {l r : List AsmInstr} {line : AsmInstr} {m n : Nat} {v w : Word} {f : Word → Word → Word}
    (hexec : ∀ (s : State) (right left : Word) (rest : List Word), s.stack = right :: left :: rest →
      stackFull s.config.stackDepth rest.length = false →
      exec line.instr s = .next ((s.setStack (f left right :: rest)).advancePc (encode line).length))
    (hl : Pushes cfg cause l m v) (hr : Pushes cfg cause r n w) :
    Pushes cfg cause (l ++ r ++ [line]) (max m (1 + n)) (f v w) := by
  intro pre post stack s hcode hs hdepth
  simp only [assemble_append, assemble_singleton, ← List.append_assoc] at hcode ⊢
  have hcodeL : cfg.code = pre ++ assemble l ++ (assemble r ++ encode line ++ post) := by simp only [hcode, List.append_assoc]
  have hcodeR : cfg.code = pre ++ assemble l ++ assemble r ++ (encode line ++ post) := by simp only [hcode, List.append_assoc]
  have hdepthL : depthAdmits cfg.stackDepth (stack.length + m) := depthAdmits_of_le hdepth (by omega)
  have hdepthR : depthAdmits cfg.stackDepth ((v :: stack).length + n) :=
    depthAdmits_of_le hdepth (by rw [List.length_cons]; omega)
  obtain ⟨s₁, hrun₁, hs₁⟩ := hl pre _ stack s hcodeL hs hdepthL
  obtain ⟨s₂, hrun₂, hs₂⟩ := hr (pre ++ assemble l) _ (v :: stack) s₁ hcodeR hs₁ hdepthR
  have room : stackFull s₂.config.stackDepth stack.length = false := by
    rw [hs₂.config]
    exact not_stackFull_of_depthAdmits hdepth (by omega)
  obtain ⟨t, hrun₃, ht⟩ := run_line hw hoff hs₂ hcode (hexec s₂ w v stack hs₂.stack_eq room)
  have hrun := run_add (run_add hrun₁ hrun₂) hrun₃
  rw [List.length_append, List.length_append]
  exact ⟨t, hrun, ht⟩

/-! #### Expressions -/

/-- R85's consequence, by induction over the expression: reducing after every operation gives the value reduced once, since taking
words of naturals respects sums and products. -/
theorem pushes_listing (e : ArithExpr) : Pushes cfg cause e.listing e.entries (BitVec.ofNat 32 e.value) := by
  induction e with
  | lit b => exact pushes_push1 hw hoff b
  | add l r ihl ihr =>
    have hsum := Pushes.operation (line := .add) hw hoff (fun s _ _ _ => atomically_binaryOp_of_two (f := aluAdd)) ihl ihr
    rwa [aluAdd_eq, ← BitVec.ofNat_add] at hsum
  | mul l r ihl ihr =>
    have hprod := Pushes.operation (line := .mul) hw hoff (fun s _ _ _ => atomically_binaryOp_of_two (f := aluMul)) ihl ihr
    rwa [aluMul_eq, ← BitVec.ofNat_mul] at hprod

end

end

/-- Settles O48: `pushes_listing` at the configuration of `s` and the address where `s` stands. -/
theorem expressionCodeComputesItsValue : Obligations.ExpressionCodeComputesItsValue := by
  intro e s pre post hw hr hoff hcode hpc hdepth
  have hs : s.At s.config s.cause pre.length s.stack := by
    refine ⟨rfl, ?_⟩
    rw [← hpc, BitVec.ofNat_toNat, BitVec.setWidth_eq, ← hr]
    rfl
  obtain ⟨t, hrun, ht⟩ := pushes_listing hw hoff e pre post s.stack s hcode hs hdepth
  refine ⟨t, hrun, ?_⟩
  have hvalue : BitVec.ofNat 32 (e.value % 2 ^ 32) = BitVec.ofNat 32 e.value := by
    apply BitVec.eq_of_toNat_eq
    simp
  rw [ht.arch, List.length_append, hvalue]

end Sys2Proof.Machine

/-! ### `PUSH1` (spec/43_push_immediate.md R90) -/

namespace Sys2Proof.Machine

/-- R90's first case: the operand byte is missing. -/
theorem exec_push1_of_no_operand {s : State} (h : s.operandByte? = none) :
    exec .push1 s = .next (s.raise .operandOutOfBounds) := by
  simp [exec, execPush1, h, atomically]

/-- R90's second case: the operand byte is there and the register file is full. Its third case is `exec_push1_of_room`. -/
theorem exec_push1_of_full {s : State} {b : Byte} (hb : s.operandByte? = some b)
    (full : stackFull s.config.stackDepth s.sp = true) : exec .push1 s = .next (s.raise .stackOverflow) := by
  simp [exec, execPush1, hb, push_of_full full, Except.map, atomically]

/-- Settles O23: R90's three cases, told apart by the operand byte at `pc + 1` and by whether the register file is full. -/
theorem pushImmediatePushesTheNextByte : Obligations.PushImmediatePushesTheNextByte := by
  intro s
  refine ⟨fun hend => ?missing, fun hlt hdepth => ?full, fun b hb hdepth => ?room⟩
  case missing => exact exec_push1_of_no_operand ((operandByte?_eq_none_iff s).2 hend)
  case full =>
    have hoperand : s.operandByte? = some s.config.code[s.pc.toNat + 1] := List.getElem?_eq_getElem hlt
    exact exec_push1_of_full hoperand ((stackFull_iff_finite_sp s).2 hdepth)
  case room =>
    have room : stackFull s.config.stackDepth s.sp = false := by
      rwa [← Bool.not_eq_true, stackFull_iff_finite_sp]
    exact exec_push1_of_room hb room

end Sys2Proof.Machine

/-! ### The faults (spec/60_exceptions.md R100, R101, R104, R106) -/

namespace Sys2Proof.Machine

/-- Settles O29: decode fails exactly there, and the step raises that before it looks at the flags. -/
theorem decodeFailureFaultsAtOnce : Obligations.DecodeFailureFaultsAtOnce :=
  fun s hw hr hc => step_of_decode_fails hw hr ((decodeNext_fails_iff s).2 hc)

/-! #### The fault a state is due -/

/-- The machine, if it is not held, takes the fault `c` at `s`: decode raises it, or the execute of the decoded instruction does. -/
inductive State.Raises (s : State) (c : Cause) : Prop
  | decode (hd : decodeNext s = .error c)
  | execute (i : Instr) (hd : decodeNext s = .ok i) (hu : exec i s = .next (s.raise c))

/-- Decode and execute are functions, so they raise at most one fault. -/
theorem State.Raises.unique {s : State} {c c' : Cause} (h : s.Raises c) (h' : s.Raises c') : c = c' := by
  cases h with
  | decode hd =>
    cases h' with
    | decode hd' => exact Except.error.inj (hd.symm.trans hd')
    | execute i hd' _ => cases hd.symm.trans hd'
  | execute i hd hu =>
    cases h' with
    | decode hd' => cases hd.symm.trans hd'
    | execute j hd' hu' =>
      obtain rfl : i = j := Except.ok.inj (hd.symm.trans hd')
      exact congrArg State.cause (Host.Outcome.next.inj (hu.symm.trans hu'))

/-- R100's table read from its conditions: where a cause's condition holds, decode or the execute raises that cause. -/
theorem raises_of_faultCondition {s : State} {c : Cause} (h : s.faultCondition c) : s.Raises c := by
  cases c with
  | noFault => exact False.elim h
  | invalidOpcode => exact .decode ((decodeNext_fails_iff s).2 h)
  | stackUnderflow =>
    obtain ⟨hb | hb, hsp⟩ := h
    · exact .execute .add ((decodeNext_ok_iff s .add).2 hb) (exec_add_mul_of_short (.inl rfl) hsp)
    · exact .execute .mul ((decodeNext_ok_iff s .mul).2 hb) (exec_add_mul_of_short (.inr rfl) hsp)
  | operandOutOfBounds =>
    obtain ⟨hb, hend⟩ := h
    have hoperand : s.operandByte? = none := (operandByte?_eq_none_iff s).2 hend
    exact .execute .push1 ((decodeNext_ok_iff s .push1).2 hb) (exec_push1_of_no_operand hoperand)
  | stackOverflow =>
    obtain ⟨hb, hlt, hfull⟩ := h
    have hoperand : s.operandByte? = some s.config.code[s.pc.toNat + 1] := List.getElem?_eq_getElem hlt
    exact .execute .push1 ((decodeNext_ok_iff s .push1).2 hb) (exec_push1_of_full hoperand ((stackFull_iff _ _).2 hfull))

/-- Settles O32: both causes are the one fault that decode or the execute raises. -/
theorem faultConditionsAreExclusive : Obligations.FaultConditionsAreExclusive :=
  fun _ _ _ h h' => (raises_of_faultCondition h).unique (raises_of_faultCondition h')

/-! #### The step that faults -/

/-- The step of a running machine that does not wait takes the fault that decode or the execute raises. -/
theorem State.Raises.step {s : State} {c : Cause} (h : s.Raises c) (hw : s.config.wf = true) (hr : s.status = .running)
    (ha : awaitsContinue s = false) : ∃ t, step s = .next t ∧ t.status = .faulted ∧ t.cause = c := by
  cases h with
  | decode hd =>
    obtain rfl := decodeNext_error hd
    exact ⟨_, step_of_decode_fails hw hr hd, rfl, rfl⟩
  | execute i hd hu =>
    obtain ⟨u, n, tr, hu', hstep⟩ := step_of_executes_ports ⟨hw, hr, hd, ha⟩
    obtain rfl : s.raise c = u := Host.Outcome.next.inj (hu.symm.trans hu')
    exact ⟨_, hstep, rfl, rfl⟩

/-- R100's table read from the step: a running machine faults only for a cause whose condition holds. -/
theorem faultCondition_of_step_faulted {s t : State} (fits : depthAdmits s.config.stackDepth s.sp) (hr : s.status = .running)
    (ht : step s = .next t) (hf : t.status = .faulted) : s.faultCondition t.cause := by
  obtain ⟨rfl, _⟩ | ⟨rfl, _, hc⟩ | ⟨i, u, n, tr, hx, hu, rfl⟩ := step_next_cases ht
  · cases hr.symm.trans hf
  · exact hc
  · obtain ⟨_, rfl⟩ | ⟨c, _, hc, rfl⟩ | ⟨_, _, _, _, _, _, rfl⟩ | ⟨_, _, _, _, rfl⟩ := exec_next_cases fits hx.decodes hu
    case inl => cases hf
    case inr.inl => exact hc
    case inr.inr.inl => cases hr.symm.trans hf
    case inr.inr.inr => cases hr.symm.trans hf

/-- Settles O31: the two readings of R100's table. -/
theorem faultsExactlyOnTheirConditions : Obligations.FaultsExactlyOnTheirConditions := by
  intro s c hv hr ha
  constructor
  · rintro ⟨t, ht, hf, rfl⟩
    exact faultCondition_of_step_faulted hv.stackFits hr ht hf
  · intro hc
    exact (raises_of_faultCondition hc).step hv.configWf hr ha

/-! #### The step that ends the run -/

/-- A step that ends the run writes `status`, `cause`, the signals and the trace, and nothing else: an instruction that completes with a
new stack leaves the machine running. -/
theorem step_ended_frame {s t : State} (hr : s.status = .running) (ht : step s = .next t) (hend : t.ended) :
    ∃ st c n tr, t = { s with status := st, cause := c, continues := n, trace := tr } := by
  obtain ⟨rfl, _⟩ | ⟨rfl, _⟩ | ⟨i, u, n, tr, _, hu, rfl⟩ := step_next_cases ht
  · exact ⟨_, _, _, _, rfl⟩
  · exact ⟨_, _, _, _, rfl⟩
  · obtain ⟨c, _, he⟩ | ⟨_, he⟩ | ⟨l, k, _, he⟩ := exec_cases i s
    all_goals
      rw [he] at hu
      cases hu
    · exact ⟨_, _, _, _, rfl⟩
    · exact ⟨_, _, _, _, rfl⟩
    · exact absurd hr ((ended_iff_not_running _).1 hend)

/-- Settles O33: a step that faults ends the run. -/
theorem faultsArePrecise : Obligations.FaultsArePrecise := by
  refine ⟨fun _ _ => rfl, fun s t hr ht hf => ?_⟩
  obtain ⟨_, _, _, _, rfl⟩ := step_ended_frame hr ht (.inr hf)
  exact ⟨rfl, rfl, fun _ => rfl, rfl, rfl⟩

/-- Settles O36: the state the run ended in, made running again, is the state before its last step but for the trace, which no
step reads. -/
theorem reexecutionGivesTheSameOutcome : Obligations.ReexecutionGivesTheSameOutcome := by
  intro s t hv hr ha ht hend
  obtain ⟨_, _, _, tr, rfl⟩ := step_ended_frame hr ht hend
  have hagain : { s with status := .running, cause := .noFault, trace := tr } = { s with trace := tr } := by
    rw [← hr, ← hv.runningCause hr]
  have hsame : s.SameRun { s with trace := tr } := ⟨rfl, rfl, rfl⟩
  have hheld : isHeld s = false := by simp [isHeld, ha]
  obtain ⟨t', u, ht', hu, htu⟩ := step_sameRun hv.configWf hsame hheld hheld
  obtain rfl := Host.Outcome.next.inj (ht.symm.trans ht')
  exact ⟨u, hagain ▸ hu, htu.arch.symm⟩

end Sys2Proof.Machine

/-! ### Bytes and listings (spec/30_encoding.md R45, R48, R54, R57) -/

namespace Sys2Proof.Machine

@[simp] theorem decodeOpcode_opcodeOf (i : Instr) : decodeOpcode (opcodeOf i) = some i :=
  (decodeOpcode_eq_some_iff _ i).2 rfl

theorem decode_encode_append (line : AsmInstr) (rest : List Byte) : decode (encode line ++ rest) = .ok (line, rest) := by
  cases line <;> simp [encode, decode]

/-- What `decode` reads from the front of a byte sequence, it reads from the instruction's own bytes and no others. -/
theorem eq_encode_append_of_decode {bytes rest : List Byte} {line : AsmInstr} (h : decode bytes = .ok (line, rest)) :
    bytes = encode line ++ rest := by
  cases bytes with
  | nil => cases h
  | cons op tail =>
    cases hd : decodeOpcode op with
    | none => simp [decode, hd] at h
    | some i =>
      obtain rfl := (decodeOpcode_eq_some_iff op i).1 hd
      cases i with
      | halt | add | mul => cases h; rfl
      | push1 =>
        cases tail with
        | nil => cases h
        | cons imm8 rest' => cases h; rfl

theorem decode_eq_ok_iff (bytes rest : List Byte) (line : AsmInstr) :
    decode bytes = .ok (line, rest) ↔ bytes = encode line ++ rest := by
  constructor
  · exact eq_encode_append_of_decode
  · rintro rfl
    exact decode_encode_append line rest

/-- Settles O10. -/
theorem instructionReadsBackFromItsBytes : Obligations.InstructionReadsBackFromItsBytes := decode_encode_append

/-- A listing is read one instruction at a time (R53). -/
theorem disassemble_cons (op : Byte) (tail : List Byte) :
    disassemble (op :: tail) = (decode (op :: tail)).bind fun p => (disassemble p.2).map (p.1 :: ·) := by
  rw [disassemble.eq_def]
  cases hd : decodeOpcode op with
  | none => simp [decode, hd, Except.bind]
  | some i =>
    cases i with
    | push1 => cases tail <;> simp [decode, hd, Except.bind]
    | halt | add | mul => simp [decode, hd, Except.bind]

theorem disassemble_eq_nil_iff (bytes : List Byte) : disassemble bytes = .ok [] ↔ bytes = [] := by
  cases bytes with
  | nil => simp [disassemble]
  | cons op tail =>
    rw [disassemble_cons]
    cases decode (op :: tail) with
    | error e => simp [Except.bind]
    | ok p => cases h : disassemble p.2 <;> simp [Except.bind, Except.map, h]

theorem disassemble_eq_cons_iff (bytes : List Byte) (line : AsmInstr) (lines : List AsmInstr) :
    disassemble bytes = .ok (line :: lines) ↔ ∃ rest, decode bytes = .ok (line, rest) ∧ disassemble rest = .ok lines := by
  cases bytes with
  | nil => simp [disassemble, decode]
  | cons op tail =>
    rw [disassemble_cons]
    cases decode (op :: tail) with
    | error e => simp [Except.bind]
    | ok p =>
      obtain ⟨line', rest⟩ := p
      cases h : disassemble rest <;> simp [Except.bind, Except.map, h]

/-- Settles O11, by induction over the listing: its first line is read from the front exactly if the bytes begin with its encoding. -/
theorem listingsAndBytesAgree : Obligations.ListingsAndBytesAgree := by
  intro lines
  induction lines with
  | nil => exact disassemble_eq_nil_iff
  | cons line lines ih =>
    intro bytes
    simp only [disassemble_eq_cons_iff, decode_eq_ok_iff, ih, exists_eq_right, assemble, List.flatMap_cons]

/-- A row's mask is all of byte 0, so the row selects its match byte alone (R57). -/
theorem selects_iff {r : OpcodeRow} (hr : r ∈ opcodeTable) (op : Byte) : r.selects op = true ↔ op = r.matchByte := by
  have hmask : ∀ r ∈ opcodeTable, r.mask = BitVec.allOnes 8 := by decide
  rw [OpcodeRow.selects, hmask r hr, BitVec.and_allOnes, beq_iff_eq]

/-- Settles O9: two rows that select one byte have the same match byte, and no two rows share one. -/
theorem opcodeRowsAreDisjoint : Obligations.OpcodeRowsAreDisjoint := by
  intro op
  have distinct : ∀ r ∈ opcodeTable, ∀ r' ∈ opcodeTable, r.matchByte = r'.matchByte → r = r' := by decide
  constructor
  · intro r hr r' hr' hsel hsel'
    have hop := (selects_iff hr op).1 hsel
    have hop' := (selects_iff hr' op).1 hsel'
    exact distinct r hr r' hr' (hop.symm.trans hop')
  · have hany : (∃ r ∈ opcodeTable, r.selects op = true) ↔ ∃ r ∈ opcodeTable, op = r.matchByte :=
      exists_congr fun r => and_congr_right fun hr => selects_iff hr op
    rw [hany]
    simp [opcodeTable]

/-- Settles O8: closed words, each decoded by evaluation. -/
theorem writtenWordsDecode : Obligations.WrittenWordsDecode := by
  unfold Obligations.WrittenWordsDecode
  decide

end Sys2Proof.Machine

/-! ### What every step keeps (spec/10_state.md R12, R13, R25; spec/70_reset_and_hazards.md R126) -/

namespace Sys2Proof.Machine

/-! #### Valid states -/

/-- Taking a fault keeps a state valid where the fault's condition holds. -/
theorem State.Valid.raise {s : State} {c : Cause} (h : s.Valid) (hc : s.faultCondition c) : (s.raise c).Valid where
  configWf := h.configWf
  pcInRange := h.pcInRange
  stackFits := h.stackFits
  memoryWf := h.memoryWf
  runningCause := nofun
  haltedAtHalt := nofun
  faultedForCause _ := hc

/-- The halt keeps a state valid where the machine was running at a `HALT`. -/
theorem State.Valid.halt {s : State} (h : s.Valid) (hr : s.status = .running) (hd : decodeNext s = .ok .halt) : s.halt.Valid where
  configWf := h.configWf
  pcInRange := h.pcInRange
  stackFits := h.stackFits
  memoryWf := h.memoryWf
  runningCause := nofun
  haltedAtHalt _ := ⟨h.runningCause hr, (decodeNext_ok_iff s .halt).1 hd⟩
  faultedForCause := nofun

/-- A running machine whose stack and `pc` move within their ranges stays valid. -/
theorem State.Valid.advance {s : State} {l : List Word} {n : Nat} (h : s.Valid) (hr : s.status = .running)
    (hpc : s.pc.toNat + n ≤ s.codeLen) (fits : depthAdmits s.config.stackDepth l.length) :
    ((s.setStack l).advancePc n).Valid where
  configWf := h.configWf
  pcInRange := by
    have hlen := codeLen_lt_of_wf h.configWf
    have hadv : ((s.setStack l).advancePc n).pc.toNat = s.pc.toNat + n := advancePc_toNat (by rw [State.setStack_pc]; omega)
    exact hadv.trans_le hpc
  stackFits := fits
  memoryWf := h.memoryWf
  runningCause := h.runningCause
  haltedAtHalt hh := nomatch hr.symm.trans hh
  faultedForCause hf := nomatch hr.symm.trans hf

/-- The continue signals and the trace are no part of validity. -/
theorem State.Valid.ports {s : State} (h : s.Valid) (n : Nat) (tr : List TraceEvent) :
    State.Valid { s with continues := n, trace := tr } :=
  ⟨h.configWf, h.pcInRange, h.stackFits, h.memoryWf, h.runningCause, h.haltedAtHalt, h.faultedForCause⟩

theorem exec_keeps_valid {s u : State} {i : Instr} (h : s.Valid) (hx : s.Executes i) (hu : exec i s = .next u) : u.Valid := by
  have hpc := hx.pc_lt_codeLen
  have fits := exec_keeps_stackFits h.stackFits hx.decodes hu
  obtain ⟨rfl, rfl⟩ | ⟨c, _, hc, rfl⟩ | ⟨_, _, _, _, _, _, rfl⟩ | ⟨_, _, _, hoperand, rfl⟩ :=
    exec_next_cases h.stackFits hx.decodes hu
  case inl => exact h.halt hx.running hx.decodes
  case inr.inl => exact h.raise hc
  case inr.inr.inl => exact h.advance hx.running hpc fits
  case inr.inr.inr => exact h.advance hx.running hoperand fits

/-- Settles O43, by the cases of a step: nothing happens, decode raises the fault whose condition holds, or an instruction executes. -/
theorem stepKeepsStatesValid : Obligations.StepKeepsStatesValid := by
  intro s t hv ht
  obtain ⟨rfl, _⟩ | ⟨rfl, _, hc⟩ | ⟨i, u, n, tr, hx, hu, rfl⟩ := step_next_cases ht
  · exact hv
  · exact hv.raise hc
  · exact (exec_keeps_valid hv hx hu).ports n tr

theorem construct_valid {cfg : Configuration} (hw : cfg.wf = true) : (construct cfg).Valid where
  configWf := hw
  pcInRange := Nat.zero_le _
  stackFits := (construct_endsIn hw).stackFits
  memoryWf := reset_memory_wf
  runningCause _ := rfl
  haltedAtHalt := nofun
  faultedForCause := nofun

/-- Settles O2: `State.reset` is `construct` of the configuration with nothing supplied. -/
theorem resetStateIsValid : Obligations.ResetStateIsValid :=
  ⟨fun _ => construct_valid, construct_valid (cfg := .unsupplied) rfl⟩

/-! #### The opcode table's columns -/

/-- The columns of the opcode table for one executed instruction (R57). -/
theorem exec_table_row {s u : State} {i : Instr} (fits : depthAdmits s.config.stackDepth s.sp) (hx : s.Executes i)
    (hu : exec i s = .next u) :
    ∃ r, i.row = some r ∧
      (u.status ≠ .faulted → u.pc.toNat = s.pc.toNat + r.pcAdvance ∧ u.sp + r.stackPops = s.sp + r.stackPushes) ∧
      (u.status = .faulted → u.cause ∈ faultsOf i) := by
  have hr := hx.running
  have hpc := exec_pc_toNat fits hx hu
  obtain ⟨rfl, rfl⟩ | ⟨c, hc, _, rfl⟩ | ⟨a, b, rest, v, hi, hstack, rfl⟩ | ⟨v, rfl, _, _, rfl⟩ :=
    exec_next_cases fits hx.decodes hu
  case inl => exact ⟨_, rfl, fun _ => ⟨rfl, rfl⟩, nofun⟩
  case inr.inl =>
    obtain ⟨r, hrow⟩ : ∃ r, i.row = some r := by cases i <;> exact ⟨_, rfl⟩
    exact ⟨r, hrow, fun hne => absurd rfl hne, fun _ => hc⟩
  case inr.inr.inl =>
    have hsp : s.sp = rest.length + 2 := congrArg List.length hstack
    rw [State.advancePc_status, State.setStack_status, if_pos hr] at hpc
    obtain rfl | rfl := hi
    all_goals exact ⟨_, rfl, fun _ => ⟨hpc, congrArg (· + 1) hsp.symm⟩, fun hf => nomatch hr.symm.trans hf⟩
  case inr.inr.inr =>
    rw [State.advancePc_status, State.setStack_status, if_pos hr] at hpc
    exact ⟨_, rfl, fun _ => ⟨hpc, rfl⟩, fun hf => nomatch hr.symm.trans hf⟩

/-- Settles O38: the step around the execute writes none of the columns' registers. -/
theorem tableColumnsHoldOfTheMeanings : Obligations.TableColumnsHoldOfTheMeanings := by
  intro s t i hv hx ht
  obtain ⟨u, n, tr, hu, hstep⟩ := step_of_executes_ports hx
  obtain rfl := Host.Outcome.next.inj (hstep.symm.trans ht)
  have hrow := exec_table_row hv.stackFits hx hu
  exact hrow

/-! #### The cost of a stack entry -/

theorem row_mem_opcodeTable {i : Instr} {r : OpcodeRow} (h : i.row = some r) : r ∈ opcodeTable := List.mem_of_find?_eq_some h

/-- No row of the opcode table adds an entry for less than two bytes of code (R126). -/
theorem two_mul_stackPushes_le : ∀ r ∈ opcodeTable, 2 * r.stackPushes ≤ r.pcAdvance + 2 * r.stackPops := by decide

/-- Settles O44: an executed instruction moves `pc` and `sp` by its row, and a step that faults or does nothing leaves both. -/
theorem entriesCostTwoBytesEach : Obligations.EntriesCostTwoBytesEach := by
  intro s t hv hle ht
  obtain ⟨rfl, _⟩ | ⟨rfl, _⟩ | ⟨i, _, _, _, hx, _, _⟩ := step_next_cases ht
  · exact hle
  · exact hle
  · by_cases hf : t.status = .faulted
    · obtain ⟨_, _, _, _, rfl⟩ := step_ended_frame hx.running ht (.inr hf)
      exact hle
    · obtain ⟨r, hrow, hmoves, _⟩ := tableColumnsHoldOfTheMeanings s t i hv hx ht
      obtain ⟨hpc, hsp⟩ := hmoves hf
      have hcost := two_mul_stackPushes_le r (row_mem_opcodeTable hrow)
      omega

/-! #### Runs -/

/-- What every step keeps holds at the end of a run from a state in which it holds. -/
theorem run_keeps {P : State → Prop} (hstep : ∀ s t, P s → step s = .next t → P t) {n : Nat} {s t : State} (h : P s)
    (ht : run n s = .next t) : P t := by
  induction n generalizing s with
  | zero => cases ht; exact h
  | succ n ih =>
    by_cases hr : s.status = .running
    · cases hs : step s with
      | next s' =>
        rw [run_succ_of_step hr hs] at ht
        exact ih (hstep s s' h hs) ht
      | fault r => cases r
      | refused r => simp [run, runWith, hr, hs] at ht
    · rw [run_of_ended hr] at ht
      cases ht
      exact h

/-- A state reached from reset with the configuration `cfg`, as R126's bound sees it. -/
structure State.PaidFor (cfg : Configuration) (s : State) : Prop where
  valid : s.Valid
  config : s.config = cfg
  cost : 2 * s.sp ≤ s.pc.toNat

theorem State.PaidFor.step {cfg : Configuration} {s t : State} (h : s.PaidFor cfg) (ht : step s = .next t) : t.PaidFor cfg where
  valid := stepKeepsStatesValid s t h.valid ht
  config := (step_keeps_config_and_memory ht).1.trans h.config
  cost := entriesCostTwoBytesEach s t h.valid h.cost ht

theorem construct_paidFor {cfg : Configuration} (hw : cfg.wf = true) : (construct cfg).PaidFor cfg :=
  ⟨construct_valid hw, rfl, Nat.zero_le _⟩

theorem State.PaidFor.sp_le {cfg : Configuration} {s : State} (h : s.PaidFor cfg) : s.sp ≤ cfg.code.length / 2 := by
  have hpc : s.pc.toNat ≤ cfg.code.length := h.config ▸ h.valid.pcInRange
  have hcost := h.cost
  omega

/-- In a valid state the cause `StackOverflow` is recorded only where its condition holds. -/
theorem State.Valid.overflow_condition {s : State} (h : s.Valid) (hc : s.cause = .stackOverflow) :
    s.faultCondition .stackOverflow := by
  cases hs : s.status with
  | running => cases hc.symm.trans (h.runningCause hs)
  | halted => cases hc.symm.trans (h.haltedAtHalt hs).1
  | faulted => exact hc ▸ h.faultedForCause hs

/-- The `PUSH1` that finds a register file of `floor(CODE_LEN / 2)` slots full would stand after as many pairs of bytes, with two bytes
of its own still in the code. -/
theorem State.PaidFor.cause_ne_stackOverflow {cfg : Configuration} {s : State} (h : s.PaidFor cfg)
    (hdeep : depthAdmits cfg.stackDepth (cfg.code.length / 2)) : s.cause ≠ .stackOverflow := by
  intro hc
  obtain ⟨_, hoperand, slots, hdepth, hfull⟩ := h.valid.overflow_condition hc
  rw [h.config] at hdepth
  have hslots := (depthAdmits_iff _ _).1 hdeep slots hdepth
  have hlen : s.codeLen = cfg.code.length := congrArg (·.code.length) h.config
  have hcost := h.cost
  omega

/-- Settles O45: from reset every state of the run is paid for. -/
theorem deepEnoughFileNeverOverflows : Obligations.DeepEnoughFileNeverOverflows := by
  intro cfg n t hw hdeep ht
  have hpaid : t.PaidFor cfg := run_keeps (fun _ _ h hstep => h.step hstep) (construct_paidFor hw) ht
  exact ⟨hpaid.cause_ne_stackOverflow hdeep, hpaid.sp_le⟩

end Sys2Proof.Machine

/-! ### What is read, and what an execute leaves unchanged (spec/10_state.md R14; spec/20_memory.md R31, R34; spec/40_engine.md R72) -/

namespace Sys2Proof.Machine

/-! #### Reading -/

/-- Settles O12: a code read is a lookup in the list of the code's bytes. -/
theorem codeReadsStayInsideTheCode : Obligations.CodeReadsStayInsideTheCode := by
  intro s addr
  exact ⟨fun h => List.getElem?_eq_getElem h, (codeByte?_eq_none_iff s addr).2⟩

theorem slot?_eq_none_iff (s : State) (i : Nat) : s.slot? i = none ↔ s.sp ≤ i := by
  rw [State.slot?, List.getElem?_eq_none_iff, List.length_reverse, State.sp]

theorem stack_eq_of_slots {s t : State} (h : ∀ i, s.slot? i = t.slot? i) : s.stack = t.stack :=
  List.reverse_inj.1 (List.ext_getElem? h)

/-- Settles O14. -/
theorem slotsDetermineTheStack : Obligations.SlotsDetermineTheStack := by
  intro s t
  refine ⟨slot?_eq_none_iff s, fun h => ?_⟩
  have hstack := stack_eq_of_slots h
  exact ⟨congrArg List.length hstack, hstack⟩

/-- Settles O5: each output is its register by definition, and the numbers are closed. -/
theorem outputsShowTheRegisters : Obligations.OutputsShowTheRegisters :=
  ⟨fun _ => ⟨rfl, rfl, fun _ => rfl, rfl, rfl⟩, rfl, rfl, rfl, rfl, rfl, rfl, rfl, rfl⟩

/-! #### Frames -/

theorem exec_keeps_trace {i : Instr} {s u : State} (hu : exec i s = .next u) : u.trace = s.trace := by
  obtain ⟨c, _, he⟩ | ⟨_, he⟩ | ⟨l, n, _, he⟩ := exec_cases i s
  all_goals
    rw [he] at hu
    cases hu
    rfl

/-- What no execute writes, in the words of the frame statements. -/
theorem exec_frame {i : Instr} {s t : State} (ht : exec i s = .next t) :
    t.config = s.config ∧ t.continues = s.continues ∧ t.trace = s.trace ∧
    (∀ a, t.codeByte? a = s.codeByte? a) ∧ (∀ a, t.dataByte? a = s.dataByte? a) := by
  obtain ⟨hcfg, hmem⟩ := exec_keeps_config_and_memory ht
  exact ⟨hcfg, exec_keeps_continues ht, exec_keeps_trace ht, codeByte?_congr hcfg, dataByte?_congr hmem⟩

/-- Settles O24: `HALT` writes `status` only. -/
theorem haltFrame : Obligations.HaltFrame := by
  intro s t ht
  have hframe := exec_frame ht
  obtain rfl : s.halt = t := Host.Outcome.next.inj ht
  exact ⟨rfl, rfl, fun _ => rfl, rfl, hframe⟩

/-- A slot below the entries `l` on top is one of the rest of the stack. -/
theorem slot?_of_stack_append {s : State} {l rest : List Word} (h : s.stack = l ++ rest) {j : Nat} (hj : j < rest.length) :
    s.slot? j = rest.reverse[j]? := by
  rw [State.slot?, h, List.reverse_append, List.getElem?_append_left (by rwa [List.length_reverse])]

/-- All that `ADD` and `MUL` can do: take a fault, which with two entries needs an over-full register file, or replace the two. -/
theorem exec_add_mul_cases {i : Instr} (hi : i = .add ∨ i = .mul) (s : State) :
    (∃ c, (2 ≤ s.sp → ¬ depthAdmits s.config.stackDepth s.sp) ∧ exec i s = .next (s.raise c)) ∨
    (∃ a b rest v, s.stack = a :: b :: rest ∧ exec i s = .next ((s.setStack (v :: rest)).advancePc 1)) := by
  obtain ⟨f, hf⟩ : ∃ f, exec i s = atomically s ((binaryOp f s).map (·.advancePc 1)) := by
    obtain rfl | rfl := hi
    · exact ⟨aluAdd, rfl⟩
    · exact ⟨aluMul, rfl⟩
  rw [hf]
  obtain ⟨hshort, h⟩ | ⟨a, b, rest, hstack, ⟨hfull, h⟩ | h⟩ := binaryOp_cases f s
  all_goals rw [h]
  · exact .inl ⟨.stackUnderflow, fun htwo => absurd hshort (Nat.not_lt_of_le htwo), rfl⟩
  · refine .inl ⟨.stackOverflow, fun _ fits => ?_, rfl⟩
    cases (room_after_two_pops hstack fits).symm.trans hfull
  · exact .inr ⟨a, b, rest, f b a, hstack, rfl⟩

/-- Settles O25: a fault leaves `pc` and the stack; otherwise the slots below `x[sp-2]` are those of the rest of the stack, before and
after. -/
theorem addMulFrame : Obligations.AddMulFrame := by
  intro i s t hi ht
  have hframe := exec_frame ht
  obtain ⟨c, hover, he⟩ | ⟨a, b, rest, v, hstack, he⟩ := exec_add_mul_cases hi s
  all_goals
    rw [he] at ht
    cases ht
  · exact ⟨fun _ _ => rfl, fun _ => ⟨rfl, rfl⟩, fun htwo fits => absurd fits (hover htwo), hframe⟩
  · have hsp : s.sp = rest.length + 2 := congrArg List.length hstack
    refine ⟨fun j hj => ?slots, fun hshort => ?short, fun _ _ => ⟨hsp.symm, rfl, rfl⟩, hframe⟩
    case slots =>
      have hj' : j < rest.length := by omega
      rw [State.advancePc_slot, slot?_of_stack_append (l := [a, b]) hstack hj']
      exact slot?_of_stack_append (l := [v]) rfl hj'
    case short => omega

/-- Settles O26: the faults leave `pc` and the stack, and happen only without the operand byte or without room; otherwise the word goes on
top. -/
theorem pushImmediateFrame : Obligations.PushImmediateFrame := by
  intro s t ht
  have hframe := exec_frame ht
  obtain ⟨hnone, he⟩ | ⟨b, hb, ⟨hfull, he⟩ | ⟨hroom, he⟩⟩ := exec_push1_cases s
  all_goals
    rw [he] at ht
    cases ht
  · have hend := (operandByte?_eq_none_iff s).1 hnone
    exact ⟨fun _ _ => rfl, fun _ => ⟨rfl, rfl⟩, fun hlt => absurd hend (Nat.not_le_of_lt hlt), hframe⟩
  · have hdepth := (stackFull_iff_finite_sp s).1 hfull
    exact ⟨fun _ _ => rfl, fun _ => ⟨rfl, rfl⟩, fun _ hne => absurd hdepth hne, hframe⟩
  · have hlt : s.pc.toNat + 1 < s.codeLen := lt_codeLen_of_codeByte? hb
    have hne : s.config.stackDepth ≠ .finite s.sp := by rw [ne_eq, ← stackFull_iff_finite_sp, hroom]; decide
    refine ⟨fun _ => setStack_cons_slot_lt _, fun hfault => ?_, fun _ _ => ⟨rfl, rfl, rfl⟩, hframe⟩
    obtain hend | hdepth := hfault
    · exact absurd hend (Nat.not_le_of_lt hlt)
    · exact absurd hdepth hne

end Sys2Proof.Machine

/-! ### The step, the hold and the trace (spec/40_engine.md R65, R66, R68; spec/60_exceptions.md R106) -/

namespace Sys2Proof.Machine

/-! #### Configurations the spec refuses, and the end of a run -/

theorem codeLenFits_iff (len : Nat) : codeLenFits len = true ↔ len ≤ 2 ^ 32 - 1 := decide_eq_true_iff

/-- Settles O6: the step's first two checks. -/
theorem illegalConfigurationIsRefused : Obligations.IllegalConfigurationIsRefused := by
  intro s
  constructor
  · intro hlong
    have hlen : codeLenFits s.codeLen = false := by rw [← Bool.not_eq_true, codeLenFits_iff]; omega
    simp [step, stepWith, hlen]
  · intro hfits hdepth
    have hlen : codeLenFits s.codeLen = true := (codeLenFits_iff _).2 hfits
    simp [step, stepWith, hlen, hdepth, StackDepth.positive]

/-- Settles O35. -/
theorem terminalStatesAreSticky : Obligations.TerminalStatesAreSticky := by
  intro s hw hend
  have hr := (ended_iff_not_running s).1 hend
  exact ⟨step_of_ended hw hr, fun _ => run_of_ended hr⟩

/-- Settles O28, by the cases of a step; one that executes answers what its execute does. -/
theorem legalStepAnswersNext : Obligations.LegalStepAnswersNext := by
  intro s hw
  obtain ⟨_, h⟩ | ⟨_, _, h⟩ | ⟨_, _, _, _, h⟩ | ⟨i, hr, hd, ha, _⟩ := step_cases hw
  · exact ⟨_, h⟩
  · exact ⟨_, h⟩
  · exact ⟨_, h⟩
  · obtain ⟨_, _, _, _, h⟩ := step_of_executes_ports ⟨hw, hr, hd, ha⟩
    exact ⟨_, h⟩

/-- Settles O34: of all an execute can do, the halt alone gives `HALTED`, and it is `HALT`'s. -/
theorem haltedOnlyByHalt : Obligations.HaltedOnlyByHalt := by
  intro s t hr ht hh
  obtain ⟨rfl, _⟩ | ⟨rfl, _⟩ | ⟨i, u, n, tr, hx, hu, rfl⟩ := step_next_cases ht
  · cases hr.symm.trans hh
  · cases hh
  · obtain ⟨c, _, he⟩ | ⟨rfl, _⟩ | ⟨l, k, _, he⟩ := exec_cases i s
    · rw [he] at hu; cases hu; cases hh
    · exact ⟨hx.decodes, (decodeNext_ok_iff s .halt).1 hx.decodes, hx.released⟩
    · rw [he] at hu; cases hu; cases hr.symm.trans hh

/-! #### The hold and the continue signal -/

theorem isHeld_iff (s : State) :
    isHeld s = true ↔ s.status = .running ∧ (∃ i, decodeNext s = .ok i) ∧ awaitsContinue s = true := by
  cases hd : decodeNext s <;> simp [isHeld, hd, Except.toBool]

theorem awaitsContinue_iff (s : State) : awaitsContinue s = true ↔ s.config.singleStepEnabled = true ∧ s.continues = 0 := by
  simp [awaitsContinue]

/-- A held step single-steps and has no signal in hand. -/
theorem single_and_no_signal_of_held {s : State} (h : isHeld s = true) :
    s.config.singleStepEnabled = true ∧ s.continues = 0 := by
  obtain ⟨_, _, ha⟩ := (isHeld_iff s).1 h
  exact (awaitsContinue_iff s).1 ha

theorem step_of_held {s : State} (hw : s.config.wf = true) (h : isHeld s = true) : step s = .next s := by
  obtain ⟨hr, ⟨i, hd⟩, ha⟩ := (isHeld_iff s).1 h
  obtain ⟨hlen, hdepth⟩ := config_checks hw
  simp [step, stepWith, hlen, hdepth, hr, hd, ha]

theorem hostContinue_of_held {s : State} (h : isHeld s = true) : hostContinue s = s.addContinue := by
  simp [hostContinue, h, (single_and_no_signal_of_held h).1]

/-- Settles O4: the two conditions under which a signal counts; a held state has none in hand, so one counted makes one. -/
theorem continueSignalIsPacingOnly : Obligations.ContinueSignalIsPacingOnly := by
  intro s
  refine ⟨fun hoff => ?off, fun hheld => ?held, fun _ hfree hunlatched => ?lost, fun hon hlatched => ?latched⟩
  case off => simp [hostContinue, hoff]
  case held =>
    have hnone := (single_and_no_signal_of_held hheld).2
    rw [hostContinue_of_held hheld, State.addContinue, hnone]
  case lost => simp [hostContinue, hfree, hunlatched]
  case latched => simp [hostContinue, hon, hlatched, State.addContinue]

/-- Settles O3: no signal is left after reset, so a single-stepping core waits at a byte that decodes. -/
theorem resetDiscardsTheRun : Obligations.ResetDiscardsTheRun := by
  intro cfg s
  refine ⟨rfl, rfl, rfl, fun i hon hd => (isHeld_iff _).2 ⟨rfl, ⟨i, hd⟩, ?_⟩⟩
  exact (awaitsContinue_iff _).2 ⟨hon, rfl⟩

/-- The release uses up the one signal given. -/
theorem releaseHold_addContinue {s : State} (hon : s.config.singleStepEnabled = true) : releaseHold s.addContinue = s := by
  simp [releaseHold, hon, State.takeContinue, State.addContinue]

/-- One continue signal lifts a hold. -/
theorem addContinue_executes {s : State} {i : Instr} (hw : s.config.wf = true) (hr : s.status = .running)
    (hd : decodeNext s = .ok i) : s.addContinue.Executes i where
  configWf := hw
  running := hr
  decodes := (decodeNext_congr (State.addContinue_pc s) rfl).trans hd
  released := by simp [awaitsContinue]

/-- Settles O40. -/
theorem continueReleasesOneStep : Obligations.ContinueReleasesOneStep := by
  intro s i hw hheld hd
  obtain ⟨hr, _, _⟩ := (isHeld_iff s).1 hheld
  obtain ⟨hon, hnone⟩ := single_and_no_signal_of_held hheld
  have hx := addContinue_executes hw hr hd
  have hrelease := releaseHold_addContinue hon
  rw [hostContinue_of_held hheld]
  refine ⟨step_of_held hw hheld, ?_, fun t ht => ?_⟩
  · rw [step_of_executes hx, executeDecoded, hrelease]
  · rw [hx.step_continues ht, hrelease, hnone]

/-- Settles O20: the step's own actions write no architectural register, and the state it leaves has ended. -/
theorem haltEndsTheRun : Obligations.HaltEndsTheRun := by
  refine ⟨fun s => rfl, fun s hx => ?_, fun s hw hheld _ => ⟨s, step_of_held hw hheld, rfl⟩⟩
  obtain ⟨u, n, tr, hu, hstep⟩ := step_of_executes_ports hx
  obtain rfl : s.halt = u := Host.Outcome.next.inj hu
  obtain ⟨hsticky, hrun⟩ := terminalStatesAreSticky { s.halt with continues := n, trace := tr } hx.configWf (.inl rfl)
  exact ⟨_, hstep, rfl, hsticky, hrun⟩

/-! #### The trace port -/

/-- With the trace off the step presents nothing after the execute either, which keeps the flag. -/
theorem onNext_traceAfter_of_off {i : Instr} {s : State} (hoff : s.config.traceEnabled = false) :
    onNext traceAfter (exec i s) = exec i s := by
  cases hu : exec i s with
  | next u =>
    have hcfg : u.config = s.config := (exec_keeps_config_and_memory hu).1
    rw [onNext, traceAfter_of_off (hcfg ▸ hoff)]
  | fault r => rfl
  | refused r => rfl

/-- Settles O27. -/
theorem stepRunsTheDecodedInstruction : Obligations.StepRunsTheDecodedInstruction := by
  intro s i hx
  have hstep : step s = onNext traceAfter (exec i (traceBefore (releaseHold s))) := step_of_executes hx
  refine ⟨hstep, fun htrace hsingle => ?_⟩
  rw [hstep, releaseHold_of_off hsingle, traceBefore_of_off htrace, onNext_traceAfter_of_off htrace]

/-- A step that executes presents its after-trace of the state that the execute leaves. -/
theorem State.Executes.eq_traceAfter {s t : State} {i : Instr} (hx : s.Executes i) (ht : step s = .next t) :
    ∃ u, exec i (traceBefore (releaseHold s)) = .next u ∧ t = traceAfter u := by
  rw [step_of_executes hx, executeDecoded] at ht
  cases hu : exec i (traceBefore (releaseHold s)) with
  | next u =>
    rw [hu] at ht
    cases ht
    exact ⟨u, rfl, rfl⟩
  | fault r => cases r
  | refused r => rw [hu] at ht; cases ht

theorem traceBefore_releaseHold_config (s : State) : (traceBefore (releaseHold s)).config = s.config := by
  obtain ⟨n, hn⟩ := releaseHold_frame s
  obtain ⟨tr, htr⟩ := traceBefore_frame (releaseHold s)
  rw [htr, hn]

theorem traceBefore_releaseHold_trace (s : State) :
    (traceBefore (releaseHold s)).trace = if s.config.traceEnabled then .before s.config.code s.pc :: s.trace else s.trace := by
  obtain ⟨n, hn⟩ := releaseHold_frame s
  rw [hn, traceBefore]
  split <;> rfl

theorem traceAfter_status (s : State) : (traceAfter s).status = s.status := by
  obtain ⟨tr, h⟩ := traceAfter_frame s
  rw [h]

theorem traceAfter_stack (s : State) : (traceAfter s).stack = s.stack := by
  obtain ⟨tr, h⟩ := traceAfter_frame s
  rw [h]

theorem traceAfter_trace (s : State) :
    (traceAfter s).trace =
      if s.config.traceEnabled = true ∧ s.status = .running then .after s.stack :: s.trace else s.trace := by
  simp only [traceAfter, Bool.and_eq_true, beq_iff_eq]
  split <;> rfl

/-- The trace of a step that executes: the before-trace, and the after-trace if the machine still runs (R68). -/
theorem State.Executes.step_trace {s t : State} {i : Instr} (hx : s.Executes i) (ht : step s = .next t) :
    t.trace =
      if s.config.traceEnabled = true then
        if t.status = .running then .after t.stack :: .before s.config.code s.pc :: s.trace
        else .before s.config.code s.pc :: s.trace
      else s.trace := by
  obtain ⟨u, hu, rfl⟩ := hx.eq_traceAfter ht
  have hcfg : u.config = s.config := (exec_keeps_config_and_memory hu).1.trans (traceBefore_releaseHold_config s)
  have htrace := (exec_keeps_trace hu).trans (traceBefore_releaseHold_trace s)
  rw [traceAfter_trace, traceAfter_status, traceAfter_stack, hcfg, htrace]
  cases s.config.traceEnabled with
  | false => simp
  | true => by_cases hr : u.status = .running <;> simp [hr]

theorem step_trace_of_not_executes {s t : State} (hx : ∀ i, ¬ s.Executes i) (ht : step s = .next t) : t.trace = s.trace := by
  obtain ⟨rfl, _⟩ | ⟨rfl, _⟩ | ⟨i, _, _, _, hxi, _⟩ := step_next_cases ht
  · rfl
  · rfl
  · exact absurd hxi (hx i)

/-- Settles O41: the three branches of `step_trace`, and the steps that do not execute. -/
theorem tracePortPresentsTheStep : Obligations.TracePortPresentsTheStep := by
  intro s t ht
  refine ⟨fun i hx hon hr => ?on, fun i hx hon hr => ?ended, fun hoff => ?off, fun hx => step_trace_of_not_executes hx ht⟩
  case on => rw [hx.step_trace ht, if_pos hon, if_pos hr]
  case ended => rw [hx.step_trace ht, if_pos hon, if_neg hr]
  case off =>
    by_cases hx : ∃ i, s.Executes i
    · obtain ⟨i, hx⟩ := hx
      rw [hx.step_trace ht, if_neg (by rw [hoff]; decide)]
    · exact step_trace_of_not_executes (not_exists.1 hx) ht

end Sys2Proof.Machine

/-! ### The host's placement of an instruction (spec/70_reset_and_hazards.md R122) -/

namespace Sys2Proof.Machine

theorem overwriteCode_length (code : List Byte) (addr : Nat) (bytes : List Byte) :
    (overwriteCode code addr bytes).length = max code.length (addr + bytes.length) := by
  simp only [overwriteCode, List.length_append, List.length_take, List.length_replicate, List.length_drop]
  omega

/-- The bytes placed at `addr` are read there: what precedes them, kept code and the gap's zeros, is `addr` bytes long. -/
theorem overwriteCode_getElem? (code : List Byte) (addr : Nat) {bytes : List Byte} {k : Nat} (hk : k < bytes.length) :
    (overwriteCode code addr bytes)[addr + k]? = bytes[k]? := by
  have hpre : (code.take addr ++ List.replicate (addr - code.length) 0).length = addr := by
    rw [List.length_append, List.length_take, List.length_replicate]
    omega
  rw [overwriteCode, List.append_assoc, List.getElem?_append_right (by omega), hpre, Nat.add_sub_cancel_left,
    List.getElem?_append_left hk]

/-- A placed state never waits: if it single-steps, it has a signal in hand. -/
theorem placeInstruction_released (s : State) (bytes : List Byte) : awaitsContinue (placeInstruction s bytes) = false := by
  have hplaced : awaitsContinue (placeInstruction s bytes) =
      (s.config.singleStepEnabled && (if awaitsContinue s then 1 else s.continues) == 0) := rfl
  rw [hplaced]
  cases ha : awaitsContinue s with
  | true => simp
  | false => exact ha

/-- A legal configuration stays legal where the placed bytes lie at legal addresses. -/
theorem placeInstruction_configWf {s : State} {bytes : List Byte} (hw : s.config.wf = true)
    (hfits : s.pc.toNat + bytes.length ≤ 2 ^ 32 - 1) : (placeInstruction s bytes).config.wf = true := by
  obtain ⟨hlen, hdepth⟩ := config_checks hw
  have hlen' : s.config.code.length ≤ 2 ^ 32 - 1 := (codeLenFits_iff _).1 hlen
  have hplaced : codeLenFits (overwriteCode s.config.code s.pc.toNat bytes).length = true := by
    rw [codeLenFits_iff, overwriteCode_length]
    omega
  rw [Configuration.wf, Bool.and_eq_true]
  exact ⟨hplaced, hdepth⟩

/-- A table word decodes to the instruction whose opcode byte is its byte 0. -/
theorem tableBytes_head_of_decodeTableWord {nbits w : Nat} {i : Instr} (h : decodeTableWord nbits w = some i) :
    (tableBytes nbits w)[0]? = some (opcodeOf i) := by
  rw [decodeTableWord] at h
  cases hd : decode (tableBytes nbits w) with
  | error e => rw [hd] at h; cases h
  | ok p =>
    obtain ⟨line, rest⟩ := p
    rw [hd] at h
    cases h
    rw [eq_encode_append_of_decode hd]
    cases line <;> rfl

/-- Settles O42: the byte read at `pc` is the placed word's byte 0. -/
theorem placedInstructionRunsNext : Obligations.PlacedInstructionRunsNext := by
  intro s nbits w i hw hfits hword
  have hread : (s.withFetchWord nbits w).codeByte? s.pc.toNat = some (opcodeOf i) := by
    rw [← tableBytes_head_of_decodeTableWord hword]
    exact overwriteCode_getElem? s.config.code s.pc.toNat (k := 0) Nat.zero_lt_two
  have hx : (s.withFetchWord nbits w).Executes i :=
    { configWf := placeInstruction_configWf hw hfits
      running := rfl
      decodes := (decodeNext_ok_iff _ i).2 hread
      released := placeInstruction_released s _ }
  exact ⟨hx, rfl, rfl, rfl⟩

end Sys2Proof.Machine

/-! ### The loader's text (spec/30_encoding.md R56) -/

namespace Sys2Proof.Machine

/-- The sixteen digits in value order, letters in lower case. -/
def lowerDigits : List Char := ['0', '1', '2', '3', '4', '5', '6', '7', '8', '9', 'a', 'b', 'c', 'd', 'e', 'f']

/-- The sixteen digits in value order, letters in upper case. -/
def upperDigits : List Char := ['0', '1', '2', '3', '4', '5', '6', '7', '8', '9', 'A', 'B', 'C', 'D', 'E', 'F']

/-- The digits of either list, found by their code points. -/
theorem digits_by_code :
    (∀ n < 58, 48 ≤ n → lowerDigits[n - 48]? = some (Char.ofNat n)) ∧
    (∀ n < 103, 97 ≤ n → lowerDigits[n - 97 + 10]? = some (Char.ofNat n)) ∧
    (∀ n < 71, 65 ≤ n → upperDigits[n - 65 + 10]? = some (Char.ofNat n)) := by decide

/-- Character ranges are ranges of code points. -/
theorem char_range_iff (lo hi c : Char) : (lo ≤ c ∧ c ≤ hi) ↔ lo.toNat ≤ c.toNat ∧ c.toNat ≤ hi.toNat := Iff.rfl

/-- Each of the three ranges of digits lies in one of the lists, each digit at its value. -/
theorem mem_digits_of_hexDigit? {c : Char} {v : Nat} (h : hexDigit? c = some v) :
    lowerDigits[v]? = some c ∨ upperDigits[v]? = some c := by
  obtain ⟨numerals, lower, upper⟩ := digits_by_code
  have hc : some (Char.ofNat c.toNat) = some c := congrArg some (Char.ofNat_toNat c)
  simp only [hexDigit?, char_range_iff, Char.reduceToNat] at h
  split_ifs at h with h09 haf hAF
  all_goals cases h
  · exact .inl ((numerals c.toNat (Nat.lt_succ_of_le h09.2) h09.1).trans hc)
  · exact .inl ((lower c.toNat (Nat.lt_succ_of_le haf.2) haf.1).trans hc)
  · exact .inr ((upper c.toNat (Nat.lt_succ_of_le hAF.2) hAF.1).trans hc)

theorem hexDigit?_digits : ∀ v : Fin 16, hexDigit? lowerDigits[v] = some v.val ∧ hexDigit? upperDigits[v] = some v.val := by decide

theorem hexDigit?_eq_some_iff (c : Char) (v : Nat) :
    hexDigit? c = some v ↔ lowerDigits[v]? = some c ∨ upperDigits[v]? = some c := by
  refine ⟨mem_digits_of_hexDigit?, ?_⟩
  rintro (h | h)
  all_goals
    obtain ⟨hv, rfl⟩ := List.getElem?_eq_some_iff.1 h
  · exact (hexDigit?_digits ⟨v, hv⟩).1
  · exact (hexDigit?_digits ⟨v, hv⟩).2

/-- A text that begins with two characters is accepted exactly if both are digits and the rest is; the pair gives the first byte. -/
theorem hexPairs_cons_cons_eq_ok_iff (hi lo : Char) (rest : List Char) (bytes : List Byte) :
    hexPairs (hi :: lo :: rest) = .ok bytes ↔
      ∃ h l tail, hexDigit? hi = some h ∧ hexDigit? lo = some l ∧ hexPairs rest = .ok tail ∧
        bytes = BitVec.ofNat 8 (16 * h + l) :: tail := by
  rw [hexPairs]
  cases hexDigit? hi with
  | none => simp
  | some h =>
    cases hexDigit? lo with
    | none => simp
    | some l => cases hexPairs rest <;> simp [Except.map, eq_comm]

/-- A text is accepted exactly if it is an even number of digits. -/
theorem hexPairs_accepts_iff : ∀ text : List Char,
    (∃ bytes, hexPairs text = .ok bytes) ↔ text.length % 2 = 0 ∧ ∀ c ∈ text, (hexDigit? c).isSome = true
  | [] => by simp [hexPairs]
  | [_] => by simp [hexPairs]
  | hi :: lo :: rest => by
    have ih := hexPairs_accepts_iff rest
    have hlen : (hi :: lo :: rest).length % 2 = rest.length % 2 := Nat.add_mod_right _ 2
    simp only [hlen, List.forall_mem_cons, Option.isSome_iff_exists] at ih ⊢
    constructor
    · rintro ⟨bytes, hok⟩
      obtain ⟨h, l, tail, hhi, hlo, hrest, _⟩ := (hexPairs_cons_cons_eq_ok_iff hi lo rest bytes).1 hok
      obtain ⟨heven, hall⟩ := ih.1 ⟨tail, hrest⟩
      exact ⟨heven, ⟨h, hhi⟩, ⟨l, hlo⟩, hall⟩
    · rintro ⟨heven, ⟨h, hhi⟩, ⟨l, hlo⟩, hall⟩
      obtain ⟨tail, hrest⟩ := ih.2 ⟨heven, hall⟩
      exact ⟨_, (hexPairs_cons_cons_eq_ok_iff hi lo rest _).2 ⟨h, l, tail, hhi, hlo, hrest, rfl⟩⟩

theorem hexPairs_length : ∀ {text : List Char} {bytes : List Byte}, hexPairs text = .ok bytes → text.length = 2 * bytes.length
  | [], _, hok => by cases hok; rfl
  | [_], _, hok => nomatch hok
  | hi :: lo :: rest, bytes, hok => by
    obtain ⟨_, _, tail, _, _, hrest, rfl⟩ := (hexPairs_cons_cons_eq_ok_iff hi lo rest bytes).1 hok
    have ih := hexPairs_length hrest
    rw [List.length_cons, List.length_cons, List.length_cons, ih, Nat.mul_succ]

/-- Each pair gives its byte, high digit first (R56). -/
theorem hexPairs_getElem? : ∀ {text : List Char} {bytes : List Byte}, hexPairs text = .ok bytes →
    ∀ (k : Nat) (hi lo : Char) (h l : Nat), text[2 * k]? = some hi → text[2 * k + 1]? = some lo →
      hexDigit? hi = some h → hexDigit? lo = some l → bytes[k]? = some (BitVec.ofNat 8 (16 * h + l))
  | [], _, _ => nofun
  | [_], _, hok => nomatch hok
  | a :: b :: rest, bytes, hok => by
    intro k hi lo h l hhi hlo hh hl
    obtain ⟨_, _, tail, ha, hb, hrest, rfl⟩ := (hexPairs_cons_cons_eq_ok_iff a b rest bytes).1 hok
    cases k with
    | zero =>
      cases hhi
      cases hlo
      cases ha.symm.trans hh
      cases hb.symm.trans hl
      rfl
    | succ k => exact hexPairs_getElem? hrest k hi lo h l hhi hlo hh hl

/-- Without the mark `0x` or `0X` the whole text is the digits. -/
theorem loadHex_of_unmarked {text : List Char} (hx : ∀ d, text ≠ '0' :: 'x' :: d) (hX : ∀ d, text ≠ '0' :: 'X' :: d) :
    loadHex text = hexPairs text := by
  unfold loadHex
  split
  · exact absurd rfl (hx _)
  · exact absurd rfl (hX _)
  · rfl

/-- Settles O49. -/
theorem hexTextIsReadStrictly : Obligations.HexTextIsReadStrictly :=
  ⟨hexDigit?_eq_some_iff, fun _ => ⟨rfl, rfl⟩, fun _ => loadHex_of_unmarked, hexPairs_accepts_iff,
    fun _ _ hok => ⟨hexPairs_length hok, hexPairs_getElem? hok⟩⟩

end Sys2Proof.Machine
